-- ==== Sys2Proof/Word.lean ====
section
/-! DEFINITION. The word types of the HSNR codec and the two shapes a result can have. -/

namespace Sys2Proof

/-- A binary32 bit pattern (30_encoding.md R66). -/
abbrev F32 := BitVec 32

/-- An HSNR word (30_encoding.md R60). -/
abbrev Hsnr := BitVec 16

/-- An operation descriptor (30_encoding.md R76). -/
abbrev Descriptor := BitVec 33

/-- What `HSNR.ENC` yields (00_scope.md R7; 41_encoder.md R110). The error carries no word
(10_state.md R28). -/
inductive EncResult where
  | ok (y : Hsnr)
  | outOfRange
  deriving DecidableEq, Repr, Inhabited

/-- One element of the host's result list (00_scope.md R9; 30_encoding.md R73). -/
inductive Result where
  | enc (r : EncResult)
  | dec (y : F32)
  deriving DecidableEq, Repr, Inhabited

end Sys2Proof
end

