-- ==== Sys2Proof/Config.lean ====
section
/-! DEFINITION. The parameters the spec leaves to the model's user (00_scope.md R11;
93_implementation_defined.md U2 to U7) and the free values: values the spec leaves
unspecified, which no proof can see. The setting the machine runs with is
`Sys2Proof.Machine.params` (Machine/Ops.lean). -/

namespace Sys2Proof

/-- `SU_TIE`: the tie rule of `round` in the soft-underflow encoder (41_encoder.md R122, D5). -/
inductive SuTie where
  | away
  | even
  | up
  deriving DecidableEq, Repr

/-- `SU_OVF`: the word when soft-underflow `T = +2048` (41_encoder.md R124, D6). -/
inductive SuOvf where
  | wrap
  | any
  deriving DecidableEq, Repr

/-- `NAN_POLICY`: the result for a NaN operand (41_encoder.md R113, D4). -/
inductive NanPolicy where
  | reject
  | any
  deriving DecidableEq, Repr

/-- The word of a carry-out operand: as the steps of 41_encoder.md R118 and R119 give it, or any
value (93_implementation_defined.md U2 and U3, treatment `parameter`; the name is the model's,
log 8). -/
inductive CarryPolicy where
  | asWritten
  | any
  deriving DecidableEq, Repr

/-- The parameters some rule of the spec reads (00_scope.md R11). They are arguments fixed before
any operation, not registers (10_state.md R25, R31). `LATENCY` and `HOST_BYTE_ORDER` are read by
no rule and do not occur (log 11, log 12). -/
structure Params where
  suTie     : SuTie
  suOvf     : SuOvf
  nanPolicy : NanPolicy
  carry     : CarryPolicy
  deriving DecidableEq, Repr

/-- `OOR_DATA = any`: the level on `enc_y` while it is meaningless (10_state.md R28, R34; U6, U8),
at one draw. -/
opaque Config.freeEncY : Nat → Hsnr

/-- The level on `enc_oor` while `enc_a` is undriven (10_state.md R34; U8), at one draw. -/
opaque Config.freeEncOor : Nat → Bool

/-- The level on `dec_y` while `dec_a` is undriven (10_state.md R34; U8), at one draw. -/
opaque Config.freeDecY : Nat → F32

/-- `SU_OVF = any`: the word of an operand with `T = +2048` (41_encoder.md R124; U4). -/
opaque Config.freeOverflowWord : F32 → Hsnr

/-- `CarryPolicy.any`: the word of a carry-out operand (U2, U3). -/
opaque Config.freeCarryWord : F32 → Hsnr

/-- `NAN_POLICY = any`: the result of a NaN operand (41_encoder.md R113; U5). -/
opaque Config.freeNanResult : F32 → EncResult

/-- `HSNR_MIN` (00_scope.md R10; 40_format_values.md R93). -/
def HSNR_MIN : ℚ := -4

/-- `HSNR_MAX` (00_scope.md R10; 40_format_values.md R93). -/
def HSNR_MAX : ℚ := 4 - 1 / 1024

end Sys2Proof
end

