-- ==== Sys2Proof/Syntax.lean ====
section
/-! DEFINITION. The operations of the block: one constructor per row of the opcode table
(30_encoding.md R73). -/

namespace Sys2Proof

/-- One operation with its operand (30_encoding.md R73, R75, R76). -/
inductive Instr where
  /-- `HSNR.ENC a`: encode the binary32 pattern `a`. -/
  | enc (a : F32)
  /-- `HSNR.DEC w`: decode the HSNR word `w`. `x` is the descriptor's field `x`, bits 31:16, which
  the block ignores (30_encoding.md R76, R80). -/
  | dec (x : BitVec 16) (w : Hsnr)
  deriving DecidableEq, Repr

end Sys2Proof
end

