-- ==== Sys2Proof/WellFormed.lean ====
section
/-! DEFINITION. Which operations are well formed (all of them), and which are written canonically. -/

namespace Sys2Proof

/-- Every operation is well formed: no descriptor is illegal and every bit string of an operand's
width is an operand (30_encoding.md R78 to R80). The widths are in the types. -/
def Instr.wellFormed : Instr → Bool
  | .enc _ => true
  | .dec _ _ => true

/-- "The canonical descriptor of a `HSNR.DEC` has `d[31:16] = 0`" (30_encoding.md R76). A descriptor
that is not canonical is legal all the same (R80). -/
def Instr.canonical : Instr → Bool
  | .enc _ => true
  | .dec x _ => x == 0

/-- The canonical form of an operation: the ignored bits made 0 (30_encoding.md R76). -/
def Instr.canonicalise : Instr → Instr
  | .enc a => .enc a
  | .dec _ w => .dec 0 w

end Sys2Proof
end

