-- ==== Sys2Proof/Decode.lean ====
section
/-! DEFINITION. The decoder of operation descriptors, the encoder of operations, and the opcode map
(30_encoding.md R76, R77, R80; opcode_table.json). -/

namespace Sys2Proof

/-- The operation a descriptor stands for: bit 32 is `op`, 1 for `HSNR.ENC` and 0 for `HSNR.DEC`;
the operand is `d[31:0]`, or `d[15:0]` with `d[31:16]` ignored (30_encoding.md R76). Total: no
descriptor is illegal (R80). -/
def decode (d : Descriptor) : Instr :=
  if d.getLsbD 32 then .enc (d.extractLsb' 0 32)
  else .dec (d.extractLsb' 16 16) (d.extractLsb' 0 16)

/-- Why a number is no descriptor. -/
inductive DecodeError where
  /-- The number has a bit above bit 32: "a descriptor always 33 bits" (30_encoding.md R81). -/
  | notThirtyThreeBits
  deriving DecidableEq, Repr

/-- The descriptor a number denotes, rejecting by name a number of more than 33 bits
(30_encoding.md R81). -/
def toDescriptor (n : Nat) : Except DecodeError Descriptor :=
  if n < 2 ^ 33 then .ok (BitVec.ofNat 33 n) else .error .notThirtyThreeBits

/-- Decoding of any number at all. -/
def decodeNat (n : Nat) : Except DecodeError Instr :=
  (toDescriptor n).map decode

/-- The descriptor the opcode table's numbering gives: the low `nbits` bits of `w`, every bit above
them 0. -/
def tableWord (nbits w : Nat) : Nat := w % 2 ^ nbits

/-- The operation the decoder reads from an opcode-table word. The block never splits a descriptor
into bytes (20_memory.md R43; log 12), so the word is taken as the one number the table makes it. -/
def decodeTableWord (nbits w : Nat) : Option Instr :=
  match decodeNat (tableWord nbits w) with
  | .ok i => some i
  | .error _ => none

/-- The descriptor of an operation (30_encoding.md R76): `{1, a}` or `{0, x, w}`. -/
def encode : Instr → Descriptor
  | .enc a => 1#1 ++ a
  | .dec x w => 0#1 ++ (x ++ w)

/-- One row of the opcode map (30_encoding.md R77): a descriptor `d` belongs to the row when
`d AND mask = pattern`. -/
structure OpcodeRow where
  mnemonic : String
  pattern  : Descriptor
  mask     : Descriptor
  deriving DecidableEq, Repr

/-- The row of `HSNR.ENC` (30_encoding.md R77). -/
def encRow : OpcodeRow := ⟨"HSNR.ENC", 0x100000000#33, 0x100000000#33⟩

/-- The row of `HSNR.DEC` (30_encoding.md R77). -/
def decRow : OpcodeRow := ⟨"HSNR.DEC", 0x000000000#33, 0x100000000#33⟩

/-- The opcode map (30_encoding.md R77; opcode_table.json). -/
def opcodeTable : List OpcodeRow := [encRow, decRow]

/-- A descriptor belongs to a row. -/
def OpcodeRow.covers (r : OpcodeRow) (d : Descriptor) : Bool := d &&& r.mask == r.pattern

/-- The row an operation is of (30_encoding.md R73). -/
def Instr.row : Instr → OpcodeRow
  | .enc _ => encRow
  | .dec _ _ => decRow

end Sys2Proof
end

