-- ==== Sys2Proof/Machine/State.lean ====
section
/-! DEFINITION. The state a step acts on, the reasons a step can stop, and the state at the start.
THE BLOCK HOLDS NO STATE (10_state.md R20 to R33): there is no register, flag, program counter or
memory here. What is here is what the spec puts around the block: the operands the host holds on
the input ports, and the host's program, position and result list (00_scope.md R8, R9). -/

namespace Sys2Proof.Machine

structure State where
  /-- `enc_a`: the operand the host holds on the encoder's port (10_state.md R27;
  70_reset_and_hazards.md R207), `none` while undriven (10_state.md R34). -/
  encA    : Option F32
  /-- `dec_a`: the operand the host holds on the decoder's port, `none` while undriven. -/
  decA    : Option Hsnr
  /-- The descriptors of the host's program still to be presented, in order (00_scope.md R9). -/
  pending : List Descriptor
  /-- The descriptors already presented; its length is the index into the program (10_state.md R22). -/
  done    : List Descriptor
  /-- The results collected so far, in order (00_scope.md R9; 70_reset_and_hazards.md R210). -/
  results : List Result
  /-- THE MODEL'S OWN: the index of the free values of Config (log 9). -/
  draws   : Nat
  deriving DecidableEq, Repr

/-- Why a step stops without a next state. `OutOfRange` is not here: it is a result
(60_exceptions.md R186; 70_reset_and_hazards.md R210). -/
inductive Fault where
  /-- Raised by `step` alone, when the host has no descriptor left: the run is over
  (70_reset_and_hazards.md R210; log 4). Safe: nothing happens to the block when nothing is
  presented. -/
  | runOver
  deriving DecidableEq, Repr

/-- Why an operation has no meaning in the model. -/
inductive Refusal where
  /-- Raised by `exec` for an operation that has no meaning yet; at present by none. Safe. -/
  | notModelled (mnemonic : String)
  deriving DecidableEq, Repr

/-- The instant before the first operand: no input driven, no result (10_state.md R33, R34;
70_reset_and_hazards.md R200), and no program given by the host (log 3). -/
def State.reset : State :=
  { encA := none, decA := none, pending := [], done := [], results := [], draws := 0 }

/-- The index into the host's program (00_scope.md R9; 10_state.md R22). -/
def State.position (s : State) : Nat := s.done.length

/-- The host's whole program (00_scope.md R9). -/
def State.program (s : State) : List Descriptor := s.done ++ s.pending

end Sys2Proof.Machine
end

