-- ==== Sys2Proof/Machine/Ops.lean ====
section
/-! DEFINITION. The shared operations over State: what the host does to the block (00_scope.md R8),
and the parameter setting the machine runs with (00_scope.md R11). There is no memory, so there is no
memory operation (20_memory.md R40), and no exception is taken anywhere (60_exceptions.md R186): the
error is a result like any other, so `State.collect` is all that happens on it. -/

namespace Sys2Proof.Machine

/-- The defaults of 00_scope.md R11 and of 93_implementation_defined.md U2 and U3 (logs 5 to 8). -/
def params : Params :=
  { suTie := .away, suOvf := .wrap, nanPolicy := .reject, carry := .asWritten }

/-- The host presents an encoder operand and holds it (00_scope.md R8; 70_reset_and_hazards.md R207).
The decoder's port is not touched (10_state.md R27: "The two groups share no signal"). -/
def State.driveEnc (s : State) (a : F32) : State := { s with encA := some a }

/-- The host presents a decoder operand and holds it. The encoder's port is not touched. -/
def State.driveDec (s : State) (w : Hsnr) : State := { s with decA := some w }

/-- The host collects one result, an error too (00_scope.md R9; 60_exceptions.md R186, R187), and the
free values move on to a new draw (log 9). -/
def State.collect (s : State) (r : Result) : State :=
  { s with results := s.results ++ [r], draws := s.draws + 1 }

/-- The descriptor the host presents next, if any is left (00_scope.md R9). -/
def State.fetch (s : State) : Option Descriptor := s.pending.head?

/-- The host moves on to the next descriptor of its program (00_scope.md R9). -/
def State.advance (s : State) : State :=
  { s with pending := s.pending.drop 1, done := s.done ++ s.pending.take 1 }

/-- The host makes `d` the next descriptor it presents, in place of the one that stood there. -/
def State.place (s : State) (d : Descriptor) : State :=
  { s with pending := d :: s.pending.drop 1 }

end Sys2Proof.Machine
end

