-- ==== Sys2Proof/Machine/Operands.lean ====
section
/-! DEFINITION. The arithmetic helpers of 00_scope.md R12, and how a value is put together from the
bits of an operand: the fields of both formats, packing, and the two signed views
(30_encoding.md R60 to R71). All total (R72). -/

namespace Sys2Proof.Machine

/-- `trunc_N(i)`: `i mod 2^N` in `0 .. 2^N - 1`, for any integer (00_scope.md R12). -/
def trunc (n : Nat) (i : Int) : BitVec n := BitVec.ofInt n i

/-- `sext_N(v)`: the low `N` bits of `v` read as two's complement,
`uint(v[N-1:0]) - 2^N * v[N-1]` (00_scope.md R12; 30_encoding.md R69). -/
def sext (n : Nat) {m : Nat} (v : BitVec m) : Int :=
  (v.toNat % 2 ^ n : Nat) - 2 ^ n * ((v.toNat / 2 ^ (n - 1) % 2 : Nat) : Int)

/-- `zext_N(v)`: `uint(v)` padded with zero bits on the left to `N` bits (00_scope.md R12). -/
def zext (n : Nat) {m : Nat} (v : BitVec m) : BitVec n := BitVec.ofNat n v.toNat

/-- `M(w) = w[10:0]` (30_encoding.md R61). -/
def fieldM (w : Hsnr) : Nat := (w.extractLsb' 0 11).toNat

/-- `S(w) = w[11]` (30_encoding.md R61). -/
def fieldS (w : Hsnr) : Nat := (w.extractLsb' 11 1).toNat

/-- `E(w) = w[15:12]` (30_encoding.md R61). -/
def fieldE (w : Hsnr) : Nat := (w.extractLsb' 12 4).toNat

/-- `pack(e, s, m) = { trunc_4(e), trunc_1(s), trunc_11(m) }`: each field keeps its own low bits
(30_encoding.md R62, D7). -/
def pack (e s m : Int) : Hsnr := trunc 4 e ++ (trunc 1 s ++ trunc 11 m)

/-- `Sf(x) = x[31]` (30_encoding.md R66, R67). -/
def fieldSf (x : F32) : Nat := (x.extractLsb' 31 1).toNat

/-- `Ef(x) = x[30:23]` (30_encoding.md R66, R67). -/
def fieldEf (x : F32) : Nat := (x.extractLsb' 23 8).toNat

/-- `Mf(x) = x[22:0]` (30_encoding.md R66, R67). -/
def fieldMf (x : F32) : Nat := (x.extractLsb' 0 23).toNat

/-- `x[30:0]` as an unsigned integer, the `mag` of 41_encoder.md R133. -/
def magnitude (x : F32) : Nat := (x.extractLsb' 0 31).toNat

/-- `f32(s, e, f) = { s[0], e[7:0], f[22:0] }` (30_encoding.md R68). -/
def f32 (s e f : Nat) : F32 := BitVec.ofNat 1 s ++ (BitVec.ofNat 8 e ++ BitVec.ofNat 23 f)

/-- The 12-bit signed view `T(w) = sext_12(w[11:0])` (30_encoding.md R70). -/
def viewT (w : Hsnr) : Int := sext 12 (w.extractLsb' 0 12)

/-- The signed integer `V(w)` of the normalised regime (30_encoding.md R71; 42_decoder.md R142). -/
def viewV (w : Hsnr) : Int :=
  if fieldS w = 0 then 2048 + (fieldM w : Int) else (fieldM w : Int) - 4096

/-- The 13-bit signed view `sext_13({ S, not S, M })` (30_encoding.md R71). -/
def viewV13 (w : Hsnr) : Int :=
  sext 13 (w.extractLsb' 11 1 ++ (~~~(w.extractLsb' 11 1) ++ w.extractLsb' 0 11))

end Sys2Proof.Machine
end

