-- ==== Sys2Proof/Machine/Value.lean ====
section
/-! DEFINITION. What number a pattern of each format stands for (30_encoding.md R66;
40_format_values.md R90 to R104), exact rationals throughout. -/

namespace Sys2Proof.Machine

/-- What a binary32 pattern denotes (30_encoding.md R66; 00_scope.md R13). -/
inductive F32Value where
  | finite (q : ℚ)
  | posInf
  | negInf
  | nan
  deriving DecidableEq, Repr

/-- `(-1)^Sf`. -/
def signOf (sf : Nat) : ℚ := if sf = 0 then 1 else -1

/-- `f32val(x)` for a pattern with `Ef != 255` (30_encoding.md R66, the last two cases). -/
def finiteValue (x : F32) : ℚ :=
  if fieldEf x = 0 then signOf (fieldSf x) * (fieldMf x : ℚ) * 2 ^ (-149 : ℤ)
  else signOf (fieldSf x) * ((2 ^ 23 + fieldMf x : Nat) : ℚ) * 2 ^ ((fieldEf x : ℤ) - 150)

/-- `f32val(x)` (30_encoding.md R66). -/
def f32val (x : F32) : F32Value :=
  if fieldEf x = 255 then
    if fieldMf x = 0 then (if fieldSf x = 0 then .posInf else .negInf) else .nan
  else .finite (finiteValue x)

/-- `hval(w)` (40_format_values.md R90). -/
def hval (w : Hsnr) : ℚ :=
  if fieldE w = 0 then (viewT w : ℚ) * 2 ^ (-24 : ℤ)
  else (viewV w : ℚ) * 2 ^ ((fieldE w : ℤ) - 25)

/-- A word as a tagged value (40_format_values.md R104). -/
inductive Tagged where
  | normalised (e : Nat) (v : Int)
  | underflow (t : Int)
  deriving DecidableEq, Repr

/-- The tagged value of a word (40_format_values.md R104). -/
def tagOf (w : Hsnr) : Tagged :=
  if fieldE w = 0 then .underflow (viewT w) else .normalised (fieldE w) (viewV w)

/-- The ranges of 40_format_values.md R104: `E` in 1..15 with `V` in -4096..-2049 or 2048..4095, or
`T` in -2048..2047. -/
def Tagged.legal : Tagged → Bool
  | .normalised e v =>
      decide (1 ≤ e ∧ e ≤ 15 ∧ ((-4096 ≤ v ∧ v ≤ -2049) ∨ (2048 ≤ v ∧ v ≤ 4095)))
  | .underflow t => decide (-2048 ≤ t ∧ t ≤ 2047)

/-- The number a tagged value stands for (40_format_values.md R90, R104). -/
def Tagged.value : Tagged → ℚ
  | .normalised e v => (v : ℚ) * 2 ^ ((e : ℤ) - 25)
  | .underflow t => (t : ℚ) * 2 ^ (-24 : ℤ)

/-- `round` on an exact rational under each tie rule of 41_encoder.md R122. -/
def roundTie : SuTie → ℚ → Int
  | .away, q => if 0 ≤ q then ⌊q + 1 / 2⌋ else -⌊-q + 1 / 2⌋
  | .up, q => ⌊q + 1 / 2⌋
  | .even, q =>
      if q - ⌊q⌋ < 1 / 2 then ⌊q⌋
      else if 1 / 2 < q - ⌊q⌋ then ⌊q⌋ + 1
      else if ⌊q⌋ % 2 = 0 then ⌊q⌋ else ⌊q⌋ + 1

end Sys2Proof.Machine
end

