-- ==== Sys2Proof/Machine/Decoder.lean ====
section
/-! DEFINITION. `HSNR.DEC` (42_decoder.md): the pattern of R146, the value of R150, and the meaning of
the operation. -/

namespace Sys2Proof.Machine

/-- `p`, the position of the highest set bit of `A` (42_decoder.md R146). -/
def highBit (n : Nat) : Nat := Nat.log2 n

/-- The pattern of a soft-underflow word with `T` neither 0 nor -2048 (42_decoder.md R146, the last
case). -/
def softPattern (t : Int) : F32 :=
  f32 (if t < 0 then 1 else 0) (103 + highBit t.natAbs)
    ((t.natAbs - 2 ^ highBit t.natAbs) <<< (23 - highBit t.natAbs))

/-- `DEC` of 00_scope.md R7: the result pattern, case by case (42_decoder.md R141 to R146). -/
def dec (w : Hsnr) : F32 :=
  if fieldE w ≠ 0 ∧ fieldS w = 0 then f32 0 (fieldE w + 113) (fieldM w <<< 12)
  else if fieldS w = 1 ∧ fieldM w = 0 then f32 1 (fieldE w + 114) 0
  else if fieldE w ≠ 0 then f32 1 (fieldE w + 113) ((2048 - fieldM w) <<< 12)
  else if viewT w = 0 then 0x00000000#32
  else softPattern (viewT w)

/-- The value-level pseudocode of 42_decoder.md R150: the number whose pattern is returned. -/
def decValue (w : Hsnr) : ℚ :=
  if fieldE w ≠ 0 then
    ((if fieldS w = 0 then 2048 + (fieldM w : Int) else (fieldM w : Int) - 4096 : Int) : ℚ)
      * 2 ^ ((fieldE w : ℤ) - 25)
  else (sext 12 (w.extractLsb' 0 12) : ℚ) * 2 ^ (-24 : ℤ)

/-- `HSNR.DEC w`: the host presents `w` and collects `DEC w`, never an error (42_decoder.md R140,
R151). `x`, the descriptor's bits 31:16, is ignored (30_encoding.md R76, R80). -/
def execDec (_x : BitVec 16) (w : Hsnr) (s : State) : Host.Outcome State Fault Refusal :=
  .next ((s.driveDec w).collect (.dec (dec w)))

end Sys2Proof.Machine
end

