-- ==== Sys2Proof/Machine/Flags.lean ====
section
/-! DEFINITION. The one status output of the block, `enc_oor`, and the range check behind it
(10_state.md R23; 41_encoder.md R112, R113, R133). There is no other flag (10_state.md R24). -/

namespace Sys2Proof.Machine

/-- A NaN pattern, of either sign (30_encoding.md R66; 41_encoder.md R113). -/
def isNaN (a : F32) : Bool := fieldEf a == 255 && fieldMf a != 0

/-- `reject(a)`, the range check on the pattern (41_encoder.md R133). -/
def rejects (a : F32) : Bool :=
  (fieldSf a == 0 && decide (magnitude a > 0x407FF000)) ||
  (fieldSf a == 1 && decide (magnitude a > 0x40800000))

/-- The range check on the value: R112's two comparisons, and R113's rejection of a NaN. -/
def outsideRange : F32Value → Bool
  | .finite q => decide (q < HSNR_MIN ∨ HSNR_MAX < q)
  | .posInf => true
  | .negInf => true
  | .nan => true

/-- `enc_oor` as a function of the encoder's result (10_state.md R27): 1 iff it is the error. -/
def oorOf : EncResult → Bool
  | .ok _ => false
  | .outOfRange => true

end Sys2Proof.Machine
end

