-- ==== Sys2Proof/Machine/Encoder.lean ====
section
/-! DEFINITION. `HSNR.ENC` (41_encoder.md), one definition per step of its pseudocode R130, for every
setting of the parameters, and the meaning of the operation. -/

namespace Sys2Proof.Machine

/-- `Mr`, the fraction rounded up from 23 to 11 bits, `Mf = 0` giving 0 (41_encoder.md R116, R117). -/
def ceilMantissa (mf : Nat) : Nat :=
  if mf = 0 then 0 else ((mf - 1) >>> 12) + 1

/-- The carry-out case, `Mr = 2048` (41_encoder.md R116). -/
def carryOut (mf : Nat) : Bool := ceilMantissa mf == 2048

/-- Step 3 and packing for `Sf = 0` (41_encoder.md R118, R120). -/
def packPositive (ef mf : Nat) : Hsnr :=
  pack ((ef : Int) - 113) 0 (ceilMantissa mf)

/-- The reflected mantissa field `trunc_11(2048 - Mr)` (41_encoder.md R119). -/
def reflect (mf : Nat) : BitVec 11 := trunc 11 (2048 - (ceilMantissa mf : Int))

/-- Step 3 and packing for `Sf = 1`: reflection, and renormalisation when the reflected FIELD is 0
(41_encoder.md R119, R120, D8). -/
def packNegative (ef mf : Nat) : Hsnr :=
  if reflect mf = 0 then pack ((ef : Int) - 130) 1 (reflect mf).toNat
  else pack ((ef : Int) - 113) 1 (reflect mf).toNat

/-- The normalised regime, `Ef > 113` (41_encoder.md R115 to R120). -/
def encNormal (p : Params) (a : F32) : Hsnr :=
  if p.carry = .any ∧ carryOut (fieldMf a) then Config.freeCarryWord a
  else if fieldSf a = 0 then packPositive (fieldEf a) (fieldMf a)
  else packNegative (fieldEf a) (fieldMf a)

/-- `|T|` for `|x| = sig / 2^sh` under each tie rule (41_encoder.md R122). The settings differ from
`(sig + 2^(sh-1)) >> sh` only on a tie, where the low `sh` bits of `sig` are `1 0 ... 0`. -/
def roundShift (tie : SuTie) (sf sig sh : Nat) : Nat :=
  match tie with
  | .away => (sig + 2 ^ (sh - 1)) >>> sh
  | .even =>
      if sig % 2 ^ sh = 2 ^ (sh - 1) then (sig >>> sh) + (sig >>> sh) % 2
      else (sig + 2 ^ (sh - 1)) >>> sh
  | .up =>
      if sf = 1 ∧ sig % 2 ^ sh = 2 ^ (sh - 1) then sig >>> sh
      else (sig + 2 ^ (sh - 1)) >>> sh

/-- `|T|` of a soft-underflow operand; 0 for zero and subnormals (41_encoder.md R121, R122). -/
def softMagnitude (tie : SuTie) (sf ef mf : Nat) : Nat :=
  if ef = 0 then 0 else roundShift tie sf (2 ^ 23 + mf) (126 - ef)

/-- `T` (41_encoder.md R121, R122). -/
def softT (tie : SuTie) (a : F32) : Int :=
  if fieldSf a = 1 then -(softMagnitude tie (fieldSf a) (fieldEf a) (fieldMf a) : Int)
  else (softMagnitude tie (fieldSf a) (fieldEf a) (fieldMf a) : Int)

/-- The soft-underflow regime, `Ef <= 113`: `{ 0000, trunc_12(T) }` (41_encoder.md R121 to R124). -/
def encSoft (p : Params) (a : F32) : Hsnr :=
  if p.suOvf = .any ∧ softT p.suTie a = 2048 then Config.freeOverflowWord a
  else 0#4 ++ trunc 12 (softT p.suTie a)

/-- The word of an accepted operand: regime selection (41_encoder.md R114). -/
def encWord (p : Params) (a : F32) : Hsnr :=
  if fieldEf a > 113 then encNormal p a else encSoft p a

/-- `HSNR.ENC` as a function of its operand alone, for every parameter setting: the range check
first, and final (41_encoder.md R110 to R113, R130). -/
def encWith (p : Params) (a : F32) : EncResult :=
  if p.nanPolicy = .any ∧ isNaN a then Config.freeNanResult a
  else if rejects a then .outOfRange
  else .ok (encWord p a)

/-- `ENC` of 00_scope.md R7, at the machine's parameter setting. -/
def enc (a : F32) : EncResult := encWith params a

/-- `HSNR.ENC a`: the host presents `a` and collects `ENC a`, a word or the error
(41_encoder.md R110; 10_state.md R27; 60_exceptions.md R180, R186). -/
def execEnc (a : F32) (s : State) : Host.Outcome State Fault Refusal :=
  .next ((s.driveEnc a).collect (.enc (enc a)))

end Sys2Proof.Machine
end

