-- ==== Sys2Proof/Machine/Dispatch.lean ====
section
/-! DEFINITION. The meaning of each operation, one arm per constructor. -/

namespace Sys2Proof.Machine

def exec (i : Instr) (s : State) : Host.Outcome State Fault Refusal :=
  match i with
  | .enc a => Sys2Proof.Machine.execEnc a s
  | .dec x w => Sys2Proof.Machine.execDec x w s

end Sys2Proof.Machine
end

