-- ==== Sys2Proof/Machine/Step.lean ====
section
/-! DEFINITION. One step: the host presents its next descriptor to the block and collects the result
(00_scope.md R9). The block itself fetches nothing (10_state.md R22). -/

namespace Sys2Proof.Machine

/-- One step. With no descriptor left the run is over (70_reset_and_hazards.md R210; log 4). -/
def step (s : State) : Host.Outcome State Fault Refusal :=
  match s.fetch with
  | none => .fault .runOver
  | some d =>
    match exec (decode d) s with
    | .next t => .next t.advance
    | .fault r => .fault r
    | .refused r => .refused r

/-- The state with an opcode-table word placed as the descriptor the next step presents, as the host
loads its program (log 3). -/
def State.withFetchWord (s : State) (nbits w : Nat) : State :=
  s.place (BitVec.ofNat 33 (tableWord nbits w))

end Sys2Proof.Machine
end

