-- ==== Sys2Proof/Machine/Text.lean ====
section
/-! DEFINITION. The notation of operations and results (30_encoding.md R82) and of descriptors (R76),
as lists of characters. Choices the spec leaves open are in log 14. -/

namespace Sys2Proof.Machine

/-- The hexadecimal digit of a number below 16, capital as the spec writes it. -/
def hexDigit (n : Nat) : Char :=
  ['0', '1', '2', '3', '4', '5', '6', '7', '8', '9', 'A', 'B', 'C', 'D', 'E', 'F'].getD n '0'

/-- The value of a hexadecimal digit, of either case (log 14). -/
def hexValue (c : Char) : Option Nat :=
  let n := c.toNat
  if 48 ≤ n ∧ n ≤ 57 then some (n - 48)
  else if 65 ≤ n ∧ n ≤ 70 then some (n - 55)
  else if 97 ≤ n ∧ n ≤ 102 then some (n - 87)
  else none

/-- The low `k` hexadecimal digits of a number, most significant first. -/
def hexDigits : Nat → Nat → List Char
  | 0, _ => []
  | k + 1, n => hexDigits k (n / 16) ++ [hexDigit (n % 16)]

/-- The number a list of hexadecimal digits denotes, continuing from `acc`. -/
def hexNumberFrom : Nat → List Char → Option Nat
  | acc, [] => some acc
  | acc, c :: cs =>
    match hexValue c with
    | some v => hexNumberFrom (16 * acc + v) cs
    | none => none

/-- The number exactly `k` hexadecimal digits denote. -/
def hexNumber (k : Nat) (cs : List Char) : Option Nat :=
  if cs.length = k then hexNumberFrom 0 cs else none

/-- The part of a line before `--`: what follows is a comment, and "the pattern is what counts"
(30_encoding.md R82). -/
def dropComment : List Char → List Char
  | [] => []
  | '-' :: '-' :: _ => []
  | c :: cs => c :: dropComment cs

/-- A line without its comment and without trailing spaces. -/
def stripLine (cs : List Char) : List Char :=
  ((dropComment cs).reverse.dropWhile (· == ' ')).reverse

/-- `ENC 0x<8 hex digits>` or `DEC 0x<4 hex digits>` (30_encoding.md R82). -/
def render : Instr → List Char
  | .enc a => 'E' :: 'N' :: 'C' :: ' ' :: '0' :: 'x' :: hexDigits 8 a.toNat
  | .dec _ w => 'D' :: 'E' :: 'C' :: ' ' :: '0' :: 'x' :: hexDigits 4 w.toNat

/-- The operation a line with no comment writes (30_encoding.md R82). -/
def parseBare : List Char → Option Instr
  | 'E' :: 'N' :: 'C' :: ' ' :: '0' :: 'x' :: cs =>
      (hexNumber 8 cs).map fun n => .enc (BitVec.ofNat 32 n)
  | 'D' :: 'E' :: 'C' :: ' ' :: '0' :: 'x' :: cs =>
      (hexNumber 4 cs).map fun n => .dec 0 (BitVec.ofNat 16 n)
  | _ => none

/-- The operation a line writes, its comment ignored (30_encoding.md R82). -/
def parse (line : List Char) : Option Instr := parseBare (stripLine line)

/-- A descriptor as nine hexadecimal digits after `0x` (30_encoding.md R76). -/
def renderDescriptor (d : Descriptor) : List Char := '0' :: 'x' :: hexDigits 9 d.toNat

/-- The descriptor nine hexadecimal digits write, "the first being 0 or 1" (30_encoding.md R76). -/
def parseDescriptor : List Char → Option Descriptor
  | '0' :: 'x' :: cs =>
    match hexNumber 9 cs with
    | some n => (toDescriptor n).toOption
    | none => none
  | _ => none

/-- A result as the spec writes it: `-> 0x<4 hex>` or `-> OutOfRange` for `ENC`, `-> 0x<8 hex>` for
`DEC` (30_encoding.md R82). -/
def renderResult : Result → List Char
  | .enc (.ok y) => '-' :: '>' :: ' ' :: '0' :: 'x' :: hexDigits 4 y.toNat
  | .enc .outOfRange =>
      ['-', '>', ' ', 'O', 'u', 't', 'O', 'f', 'R', 'a', 'n', 'g', 'e']
  | .dec y => '-' :: '>' :: ' ' :: '0' :: 'x' :: hexDigits 8 y.toNat

end Sys2Proof.Machine
end

