-- ==== Sys2Proof/Machine/Ports.lean ====
section
/-! DEFINITION. The output ports of the block, each a function of the operands on the input ports at
every instant (10_state.md R27), with a free value wherever the spec leaves a wire's level
unspecified (R28, R34; 93_implementation_defined.md U6, U8). -/

namespace Sys2Proof.Machine

/-- `enc_oor`: 1 iff the operand on `enc_a` is rejected (10_state.md R23, R27); free while undriven. -/
def State.encOor (s : State) : Bool :=
  match s.encA with
  | some a => oorOf (enc a)
  | none => Config.freeEncOor s.draws

/-- `enc_y`: the HSNR word, meaningful only while `enc_oor = 0` (10_state.md R27); free while the
operand is rejected (R28) and while undriven (R34). -/
def State.encY (s : State) : Hsnr :=
  match s.encA.map enc with
  | some (.ok y) => y
  | some .outOfRange => Config.freeEncY s.draws
  | none => Config.freeEncY s.draws

/-- `dec_y`: the decoder's result (10_state.md R27); free while undriven. -/
def State.decY (s : State) : F32 :=
  match s.decA with
  | some w => dec w
  | none => Config.freeDecY s.draws

/-- What the host reads off the encoder's two output ports (10_state.md R27, last sentence). -/
def State.sampleEnc (s : State) : EncResult :=
  if s.encOor then .outOfRange else .ok s.encY

end Sys2Proof.Machine
end

