-- ==== Sys2Proof/Safety.lean ====
section
/-! DEFINITION. The terms the claims use: the result a descriptor stands for, what every state between
operations satisfies, and the operand classes the spec flags (43_properties.md R171). -/

namespace Sys2Proof.Machine

/-- The result of an operation, a function of the operation alone (00_scope.md R9; 20_memory.md
R52). -/
def resultOfInstr : Instr → Result
  | .enc a => .enc (enc a)
  | .dec _ w => .dec (dec w)

/-- The result of a descriptor (00_scope.md R9). -/
def resultOf (d : Descriptor) : Result := resultOfInstr (decode d)

/-- The encoder operand a descriptor presents, if it is a `HSNR.ENC`. -/
def encOperand (d : Descriptor) : Option F32 :=
  match decode d with
  | .enc a => some a
  | .dec _ _ => none

/-- The decoder operand a descriptor presents, if it is a `HSNR.DEC`. -/
def decOperand (d : Descriptor) : Option Hsnr :=
  match decode d with
  | .enc _ => none
  | .dec _ w => some w

/-- What holds between operations: result number i is that of descriptor number i (00_scope.md R9),
each input port holds the last operand driven onto it, or is undriven if there was none (10_state.md
R34), and one draw was used per operation (log 9). -/
structure Consistent (s : State) : Prop where
  results_eq : s.results = s.done.map resultOf
  encA_eq    : s.encA = (s.done.filterMap encOperand).getLast?
  decA_eq    : s.decA = (s.done.filterMap decOperand).getLast?
  draws_eq   : s.draws = s.done.length

/-- A step is safe: it goes on to a next state, or the run is over because the host has presented its
whole program (70_reset_and_hazards.md R210). -/
def SafeStep (s : State) : Prop :=
  (∃ t, step s = .next t) ∨ (step s = .fault .runOver ∧ s.pending = [])

/-- Positive carry-out operands (41_encoder.md R127; 43_properties.md R171). -/
abbrev positiveCarryOut (a : F32) : Prop :=
  fieldSf a = 0 ∧ 114 ≤ fieldEf a ∧ fieldEf a ≤ 127 ∧ 0x7FF001 ≤ fieldMf a

/-- Negative carry-out operands (41_encoder.md R128; 43_properties.md R171). -/
abbrev negativeCarryOut (a : F32) : Prop :=
  fieldSf a = 1 ∧ 114 ≤ fieldEf a ∧ fieldEf a ≤ 128 ∧ 0x7FF001 ≤ fieldMf a

/-- Operands with soft-underflow `T = +2048` (41_encoder.md R124; 43_properties.md R171). -/
abbrev softOverflow (a : F32) : Prop := 0x38FFF000 ≤ a.toNat ∧ a.toNat ≤ 0x38FFFFFF

/-- The operands for which the encoded value is grossly wrong (43_properties.md R171). -/
abbrev grosslyWrong (a : F32) : Prop :=
  positiveCarryOut a ∨ negativeCarryOut a ∨ softOverflow a

/-- A tie of the soft-underflow rounding: `Ef` in 1..113 and the low `sh` bits of `sig` are
`1 0 ... 0`, `sh = 126 - Ef` (41_encoder.md R121, R122). -/
abbrev softTie (a : F32) : Prop :=
  1 ≤ fieldEf a ∧ fieldEf a ≤ 113 ∧
    (2 ^ 23 + fieldMf a) % 2 ^ (126 - fieldEf a) = 2 ^ (125 - fieldEf a)

/-- The step of the operand's binade, `2^(Ef - 138)`, and `2^-24` in the soft-underflow regime
(41_encoder.md R134; 40_format_values.md R95). -/
def binadeStep (a : F32) : ℚ :=
  if fieldEf a > 113 then 2 ^ ((fieldEf a : ℤ) - 138) else 2 ^ (-24 : ℤ)

/-- The binary32 pattern of the negated number: bit 31 flipped (30_encoding.md R66). -/
def negatePattern (a : F32) : F32 := a ^^^ 0x80000000#32

/-- The pseudocode of 41_encoder.md R130 once more, in plain arithmetic on the operand read as one
number: no field helper, no packing, no bit string of the encoder is used. The claim that it is `enc`
checks every field boundary and truncation of the encoder. -/
def encArithmetic (a : F32) : EncResult :=
  let n := a.toNat
  let mag := n % 2 ^ 31
  let sf := n / 2 ^ 31
  let ef := mag / 2 ^ 23
  let mf := mag % 2 ^ 23
  let mr := (mf + 4095) / 4096
  let m := (2048 - mr) % 2048
  let sig := 2 ^ 23 + mf
  let half := 2 ^ (125 - ef)
  let t := if ef = 0 then 0 else (sig + half) / (2 * half)
  if (sf = 0 ∧ mag > 0x407FF000) ∨ (sf = 1 ∧ mag > 0x40800000) then .outOfRange
  else if ef > 113 then
    if sf = 0 then .ok (BitVec.ofNat 16 ((ef - 113) * 4096 + mr % 2048))
    else .ok (BitVec.ofNat 16 ((if m = 0 then ef - 114 else ef - 113) * 4096 + 2048 + m))
  else if sf = 1 then .ok (BitVec.ofNat 16 ((4096 - t) % 4096))
  else .ok (BitVec.ofNat 16 t)

end Sys2Proof.Machine
end

