-- ==== Sys2Proof/Certificates/Slice0/Obligations.lean ====
section
/-! DEFINITION. What is claimed of the model. Each docstring names the rule or section of spec/ the claim
formalises, and, where a clause rests on a decision of the spec or of the model, that decision. -/

open Sys2Proof Sys2Proof.Machine

/-! ## Encoding of operations -/

/-- 30_encoding.md section 4 (descriptor layout, decision D2): decoding an encoded operation gives it
back, with every operand value, through the descriptor and through the opcode-table word; and a number
is refused as a descriptor exactly when it has more than 33 bits. -/
def Obligations.DecodeOfEncodeIsTheOperation : Prop :=
  (∀ i : Instr, i.wellFormed = true →
    decode (encode i) = i ∧
      ∀ n : Nat, 33 ≤ n → decodeTableWord n (encode i).toNat = some i) ∧
  (∀ n : Nat, decodeNat n = .error .notThirtyThreeBits ↔ 2 ^ 33 ≤ n)

/-- 30_encoding.md section 4 (decision D2): no bit of a descriptor is lost by decoding, and the canonical
descriptor differs from it at most in the ignored bits 31:16 of a `HSNR.DEC`, which it clears. -/
def Obligations.EncodeOfDecodeIsTheDescriptor : Prop :=
  (∀ d : Descriptor, encode (decode d) = d) ∧
  (∀ d : Descriptor, encode (decode d).canonicalise =
    if d.getLsbD 32 then d else d &&& 0x00000FFFF#33)

/-- 30_encoding.md section 4, opcode map (decision D2): the two rows of the map cover every descriptor,
none twice, and the decoder agrees with the map. -/
def Obligations.OpcodeMapIsTotalAndUnambiguous : Prop :=
  ∀ d : Descriptor,
    (d &&& 0x100000000#33 = 0x100000000#33 ↔ ∃ a, decode d = .enc a) ∧
    (d &&& 0x100000000#33 = 0x000000000#33 ↔ ∃ x w, decode d = .dec x w) ∧
    (∀ r ∈ opcodeTable, (r.covers d = true ↔ r = (decode d).row))

/-- 30_encoding.md section 5, descriptors (decision D2): bits 31:16 of a `HSNR.DEC` descriptor are
ignored. Two descriptors that differ only there lead, from any state, to next states that agree in
everything the block shows and in every result. And no descriptor is illegal: a step on any descriptor
goes on. -/
def Obligations.IgnoredDescriptorBitsDoNotMatter : Prop :=
  (∀ (d e : Descriptor) (rest : List Descriptor) (s : State),
    d.getLsbD 32 = false → e.getLsbD 32 = false →
    d.extractLsb' 0 16 = e.extractLsb' 0 16 →
    ∃ t u, step { s with pending := d :: rest } = .next t ∧
      step { s with pending := e :: rest } = .next u ∧
      { t with done := u.done } = u) ∧
  (∀ (d : Descriptor) (rest : List Descriptor) (s : State),
    ∃ t, step { s with pending := d :: rest } = .next t)

/-- 30_encoding.md section 6 and the descriptor notation of section 4 (decision D2; letter case, spacing
and comments as in log 14): a written operation, with or without a comment, and a written descriptor read
back as what they stand for. -/
def Obligations.WrittenOperationsReadBack : Prop :=
  (∀ i : Instr, parse (render i) = some i.canonicalise) ∧
  (∀ (i : Instr) (c : List Char),
    parse (render i ++ ' ' :: '-' :: '-' :: c) = some i.canonicalise) ∧
  (∀ d : Descriptor, parseDescriptor (renderDescriptor d) = some d)

/-- Descriptors of 95_test_vectors.md section 3 (programs P2 and P3) and of 30_encoding.md section 4,
written out bit by bit from the layout there, decode to the operations the spec lists beside them. -/
def Obligations.DescriptorsOfTheManualDecode : Prop :=
  decode 0b1_1_10000001_00000000000000000000000#33 = .enc 0xC0800000#32 ∧
  decode 0b1_0_01101110_01001111100010110101100#33 = .enc 0x3727C5AC#32 ∧
  decode 0b0_0000000000000000_1111_1_00000000000#33 = .dec 0 0xF800#16 ∧
  decode 0b0_0000000000000000_0000_0_00010101000#33 = .dec 0 0x00A8#16

/-! ## The number format -/

/-- 30_encoding.md section 1, field combination (decision D7, log 16): packing keeps each field's own low
bits, for every integer, and is the shift-and-or of the three truncated fields. -/
def Obligations.PackTruncatesEachField : Prop :=
  ∀ e s m : Int,
    ((pack e s m).toNat : Int) = 4096 * (e % 16) + 2048 * (s % 2) + m % 2048 ∧
    pack e s m = (((trunc 4 e).setWidth 16 <<< 12) ||| ((trunc 1 s).setWidth 16 <<< 11) |||
      (trunc 11 m).setWidth 16)

/-- 30_encoding.md section 1: packing and field extraction are inverse on fields in range. -/
def Obligations.PackAndExtractorsAreInverse : Prop :=
  (∀ w : Hsnr, pack (fieldE w) (fieldS w) (fieldM w) = w) ∧
  (∀ e s m : Nat, e ≤ 15 → s ≤ 1 → m ≤ 2047 →
    fieldE (pack e s m) = e ∧ fieldS (pack e s m) = s ∧ fieldM (pack e s m) = m)

/-- R70: the 12-bit signed view is `M - 2048 * S`, in -2048 .. 2047. -/
def Obligations.TwelveBitViewIsMantissaMinusSign : Prop :=
  ∀ w : Hsnr, viewT w = (fieldM w : Int) - 2048 * (fieldS w : Int) ∧
    -2048 ≤ viewT w ∧ viewT w ≤ 2047

/-- 30_encoding.md section 3, the 13-bit signed view: the synthesised bit is the complement of the sign. -/
def Obligations.ThirteenBitViewIsTheSignificand : Prop :=
  ∀ w : Hsnr, viewV13 w = viewV w ∧
    (fieldS w = 0 → viewV w = 2048 + (fieldM w : Int) ∧ 2048 ≤ viewV w ∧ viewV w ≤ 4095) ∧
    (fieldS w = 1 → viewV w = (fieldM w : Int) - 4096 ∧ -4096 ≤ viewV w ∧ viewV w ≤ -2049)

/-- 30_encoding.md section 1, the sign field: the sign bit is set exactly for the negative values, in both
regimes. -/
def Obligations.SignBitIsTheSignOfTheValue : Prop :=
  ∀ w : Hsnr, fieldS w = 1 ↔ hval w < 0

/-- 40_format_values.md section 2, zero: one word has value zero, and `0x0800` is not a negative zero. -/
def Obligations.OnlyTheZeroWordIsZero : Prop :=
  (∀ w : Hsnr, hval w = 0 ↔ w = 0x0000#16) ∧ hval 0x0800#16 = -(2 : ℚ) ^ (-13 : ℤ)

/-- R98: every value is a finite number in `[HSNR_MIN, HSNR_MAX]`, whose ends are the values of `0xF800` and
`0xF7FF`. -/
def Obligations.EveryValueLiesInTheRange : Prop :=
  (∀ w : Hsnr, HSNR_MIN ≤ hval w ∧ hval w ≤ HSNR_MAX) ∧
  HSNR_MIN = -4 ∧ HSNR_MAX = 4095 / 1024 ∧
  hval 0xF800#16 = HSNR_MIN ∧ hval 0xF7FF#16 = HSNR_MAX

/-- 40_format_values.md section 2: different words have different values. -/
def Obligations.DifferentWordsHaveDifferentValues : Prop :=
  ∀ w v : Hsnr, hval w = hval v → w = v

/-- R102: for a fixed sign and exponent field a larger mantissa field gives a larger value, a larger
magnitude when positive and a smaller one when negative, by one step per unit. -/
def Obligations.ValueGrowsByOneStepPerMantissaUnit : Prop :=
  ∀ w v : Hsnr, fieldE w = fieldE v → fieldS w = fieldS v → fieldM w < fieldM v →
    hval v - hval w =
      ((fieldM v : ℚ) - fieldM w) * (2 : ℚ) ^ ((max (fieldE w) 1 : ℤ) - 25) ∧
    hval w < hval v ∧
    (fieldS w = 0 → |hval w| < |hval v|) ∧
    (fieldS w = 1 → |hval v| < |hval w|)

/-- 40_format_values.md section 2, ranges per exponent, with its table: a normalised word lies in its binade,
the positive binade closed at its small end, which `M = 0` attains, the negative one at its large-magnitude
end, which `M = 0` attains; `M = 2047` attains the last value of each row of the table; every multiple of the
step in a binade is the value of a word of that exponent and sign; and the soft-underflow words fill
`[-2^-13, 2^-13)` likewise. -/
def Obligations.ValuesFillTheirBinade : Prop :=
  (∀ w : Hsnr,
    (1 ≤ fieldE w → fieldS w = 0 →
      (2 : ℚ) ^ ((fieldE w : ℤ) - 14) ≤ hval w ∧ hval w < (2 : ℚ) ^ ((fieldE w : ℤ) - 13)) ∧
    (1 ≤ fieldE w → fieldS w = 1 →
      -(2 : ℚ) ^ ((fieldE w : ℤ) - 13) ≤ hval w ∧ hval w < -(2 : ℚ) ^ ((fieldE w : ℤ) - 14)) ∧
    (fieldE w = 0 → -(2 : ℚ) ^ (-13 : ℤ) ≤ hval w ∧ hval w < (2 : ℚ) ^ (-13 : ℤ))) ∧
  (∀ w : Hsnr,
    (1 ≤ fieldE w → fieldS w = 0 →
      (fieldM w = 0 → hval w = (2 : ℚ) ^ ((fieldE w : ℤ) - 14)) ∧
      (fieldM w = 2047 → hval w = 4095 * (2 : ℚ) ^ ((fieldE w : ℤ) - 25))) ∧
    (1 ≤ fieldE w → fieldS w = 1 →
      (fieldM w = 0 → hval w = -(2 : ℚ) ^ ((fieldE w : ℤ) - 13)) ∧
      (fieldM w = 2047 → hval w = -2049 * (2 : ℚ) ^ ((fieldE w : ℤ) - 25))) ∧
    (fieldE w = 0 → fieldS w = 0 →
      (fieldM w = 0 → hval w = 0) ∧ (fieldM w = 2047 → hval w = 2047 * (2 : ℚ) ^ (-24 : ℤ))) ∧
    (fieldE w = 0 → fieldS w = 1 →
      (fieldM w = 0 → hval w = -(2 : ℚ) ^ (-13 : ℤ)) ∧
      (fieldM w = 2047 → hval w = -(2 : ℚ) ^ (-24 : ℤ)))) ∧
  (∀ (e : Nat) (k : Int), 1 ≤ e → e ≤ 15 →
    (2048 ≤ k → k ≤ 4095 → ∃ w : Hsnr, fieldE w = e ∧ fieldS w = 0 ∧
      hval w = (k : ℚ) * (2 : ℚ) ^ ((e : ℤ) - 25)) ∧
    (-4096 ≤ k → k ≤ -2049 → ∃ w : Hsnr, fieldE w = e ∧ fieldS w = 1 ∧
      hval w = (k : ℚ) * (2 : ℚ) ^ ((e : ℤ) - 25))) ∧
  (∀ k : Int, -2048 ≤ k → k ≤ 2047 → ∃ w : Hsnr, fieldE w = 0 ∧
    hval w = (k : ℚ) * (2 : ℚ) ^ (-24 : ℤ))

/-- 40_format_values.md section 2, the join of the regimes: each multiple of `2^-24` from `-4096 * 2^-24` to
`4095 * 2^-24` is the value of exactly one word. -/
def Obligations.RegimesJoinWithoutAGap : Prop :=
  ∀ k : Int, -4096 ≤ k → k ≤ 4095 → ∃ w : Hsnr, hval w = (k : ℚ) * (2 : ℚ) ^ (-24 : ℤ) ∧
    fieldE w ≤ 1 ∧ ∀ v : Hsnr, hval v = (k : ℚ) * (2 : ℚ) ^ (-24 : ℤ) → v = w

/-- 40_format_values.md section 2, asymmetry: the negation of a value is a value except for `-4.0`. -/
def Obligations.NegationOfAValueIsAValueButForMinusFour : Prop :=
  ∀ w : Hsnr, (∃ v : Hsnr, hval v = -hval w) ↔ w ≠ 0xF800#16

/-- 40_format_values.md section 2, order of words: words with `S = 0` are ordered like their values; with
`S = 1` a larger `E` is more negative, and within one `E` a larger `M` is less negative. -/
def Obligations.OrderOfWordsAgainstOrderOfValues : Prop :=
  ∀ w v : Hsnr,
    (fieldS w = 0 → fieldS v = 0 → (w.toNat < v.toNat ↔ hval w < hval v)) ∧
    (fieldS w = 1 → fieldS v = 1 → fieldE w < fieldE v → hval v < hval w) ∧
    (fieldS w = 1 → fieldS v = 1 → fieldE w = fieldE v → fieldM w < fieldM v → hval w < hval v)

/-- 40_format_values.md section 1, fractional form, and section 2, precision: against a significand in
[1, 2) the bias is 14, and the relative step of a normalised word lies between `2^-12` and `2^-11`. -/
def Obligations.NormalisedWordsHaveTwelveSignificantBits : Prop :=
  ∀ w : Hsnr, 1 ≤ fieldE w →
    (fieldS w = 0 →
      hval w = (1 + (fieldM w : ℚ) / 2048) * (2 : ℚ) ^ ((fieldE w : ℤ) - 14)) ∧
    (fieldS w = 1 →
      hval w = -(2 - (fieldM w : ℚ) / 2048) * (2 : ℚ) ^ ((fieldE w : ℤ) - 14)) ∧
    |hval w| * (2 : ℚ) ^ (-12 : ℤ) ≤ (2 : ℚ) ^ ((fieldE w : ℤ) - 25) ∧
    (2 : ℚ) ^ ((fieldE w : ℤ) - 25) ≤ |hval w| * (2 : ℚ) ^ (-11 : ℤ)

/-- 40_format_values.md section 2, the regime as a tagged value: the map from words to legal tagged values is
a bijection that keeps the value. -/
def Obligations.TaggedValueIsABijection : Prop :=
  (∀ w : Hsnr, (tagOf w).legal = true ∧ (tagOf w).value = hval w) ∧
  (∀ w v : Hsnr, tagOf w = tagOf v → w = v) ∧
  (∀ t : Tagged, t.legal = true → ∃ w : Hsnr, tagOf w = t)

/-! ## The decoder -/

/-- 42_decoder.md sections 1 and 4: `HSNR.DEC w` completes from every state with one binary32 pattern, a
function of `w` alone, whose value is exactly `hval(w)`; it drives no error and changes nothing else. That `x`
is ignored is the spec's decision D2 (log 18). That the draw counter grows by one is the model's choice
(log 9), and so is what the ports go on carrying (log 10). The frame: the encoder's port and outputs, and the
host's program, are as they were. -/
def Obligations.DecCompletesWithTheExactValue : Prop :=
  ∀ w : Hsnr, ∃ y : F32, f32val y = .finite (hval w) ∧
    ∀ (x : BitVec 16) (s : State), ∃ t : State, exec (.dec x w) s = .next t ∧
      t.results = s.results ++ [.dec y] ∧ t.decA = some w ∧ t.decY = y ∧
      t.encA = s.encA ∧ (s.encA.isSome = true → t.encOor = s.encOor ∧
        (s.encOor = false → t.encY = s.encY)) ∧
      t.pending = s.pending ∧ t.done = s.done ∧ t.draws = s.draws + 1

/-- R150, with the value read off the fields: the value-level pseudocode gives the number whose pattern is
returned, `V * 2^(E - 25)` or `T * 2^-24`. -/
def Obligations.DecReturnsThePatternOfThePseudocodeValue : Prop :=
  ∀ w : Hsnr, f32val (dec w) = .finite (decValue w) ∧
    (fieldE w ≠ 0 → fieldS w = 0 →
      decValue w = (2048 + (fieldM w : ℚ)) * (2 : ℚ) ^ ((fieldE w : ℤ) - 25)) ∧
    (fieldE w ≠ 0 → fieldS w = 1 →
      decValue w = ((fieldM w : ℚ) - 4096) * (2 : ℚ) ^ ((fieldE w : ℤ) - 25)) ∧
    (fieldE w = 0 →
      decValue w = ((fieldM w : ℚ) - 2048 * fieldS w) * (2 : ℚ) ^ (-24 : ℤ)) ∧
    (w = 0 → dec w = 0x00000000#32)

/-- 42_decoder.md section 3, exactness: the result pattern is the only one of its value, except that zero has
two. -/
def Obligations.DecPatternIsUniqueButForTheSignOfZero : Prop :=
  ∀ (w : Hsnr) (x : F32), f32val x = .finite (hval w) →
    x = dec w ∨ (w = 0x0000#16 ∧ x = 0x80000000#32)

/-- R148 and R147: no result is a NaN, an infinity, subnormal or minus zero, and every result lies in the
range, so it is an accepted operand of `HSNR.ENC`. -/
def Obligations.DecResultsAreAcceptedOperands : Prop :=
  ∀ w : Hsnr, (∃ q : ℚ, f32val (dec w) = .finite q ∧ -4 ≤ q ∧ q ≤ 4095 / 1024) ∧
    (fieldEf (dec w) = 0 → dec w = 0x00000000#32) ∧
    (dec w = 0x00000000#32 ↔ w = 0x0000#16) ∧ dec w ≠ 0x80000000#32 ∧
    rejects (dec w) = false ∧ ∃ y : Hsnr, enc (dec w) = .ok y

/-- 42_decoder.md section 3: the biased exponent of a nonzero result lies in 103..129, and the low 12 bits of
its fraction are zero. -/
def Obligations.DecResultsHaveElevenFractionBits : Prop :=
  ∀ w : Hsnr, fieldMf (dec w) % 4096 = 0 ∧
    (w ≠ 0 → 103 ≤ fieldEf (dec w) ∧ fieldEf (dec w) ≤ 129) ∧
    fieldSf (dec w) = fieldS w

/-! ## The encoder -/

/-- 41_encoder.md section 1, contract: `HSNR.ENC a` completes from every state with a word or the error, a function of `a` alone; the
error is raised under the range check and under no other condition (for a NaN that is the spec's decision
D4, log 7). It shows on the ports. That the draw counter grows by one is the model's choice (log 9), and so is
what the ports go on carrying (log 10). The frame: the decoder's port and output, and the host's program, are
as they were. -/
def Obligations.EncCompletesWithAWordOrTheError : Prop :=
  ∀ a : F32, ∃ r : EncResult,
    (r = .outOfRange ↔ outsideRange (f32val a) = true) ∧
    ∀ s : State, ∃ t : State, exec (.enc a) s = .next t ∧
      t.results = s.results ++ [.enc r] ∧ t.encA = some a ∧ t.sampleEnc = r ∧
      t.decA = s.decA ∧ (s.decA.isSome = true → t.decY = s.decY) ∧
      t.pending = s.pending ∧ t.done = s.done ∧ t.draws = s.draws + 1

/-- R112: the operand is rejected when its value is below -4.0 or above 3.9990234375, both infinities
are rejected, both bounds are accepted, and every value strictly between 3.9990234375 and 4.0 is rejected.
Of a NaN this says nothing. -/
def Obligations.RangeCheckRejectsByValue : Prop :=
  (∀ (a : F32) (q : ℚ), f32val a = .finite q →
    (enc a = .outOfRange ↔ q < -4 ∨ 3.9990234375 < q)) ∧
  (∀ a : F32, f32val a = .posInf ∨ f32val a = .negInf → enc a = .outOfRange) ∧
  f32val 0xC0800000#32 = .finite (-4) ∧ enc 0xC0800000#32 = .ok 0xF800#16 ∧
  f32val 0x407FF000#32 = .finite 3.9990234375 ∧ enc 0x407FF000#32 = .ok 0xF7FF#16 ∧
  f32val 0x40800000#32 = .finite 4 ∧ enc 0x40800000#32 = .outOfRange ∧
  (∀ (a : F32) (q : ℚ), f32val a = .finite q → 3.9990234375 < q → q < 4 → enc a = .outOfRange)

/-- 41_encoder.md section 2, range check on the pattern (with decision D4 for a NaN, log 7): the integer
comparison on the pattern is the comparison on the value, and the accepted patterns are two intervals. A NaN
is given the error under `NAN_POLICY = reject`; with `NAN_POLICY = any` its result is free, the model's choice
of form (log 7). -/
def Obligations.PatternRangeCheckIsTheValueRangeCheck : Prop :=
  ∀ a : F32, rejects a = outsideRange (f32val a) ∧
    (rejects a = false ↔
      a.toNat ≤ 0x407FF000 ∨ (0x80000000 ≤ a.toNat ∧ a.toNat ≤ 0xC0800000)) ∧
    (isNaN a = true ↔ f32val a = .nan) ∧
    (∀ p : Params, f32val a = .nan →
      (p.nanPolicy = .reject → encWith p a = .outOfRange) ∧
      (p.nanPolicy = .any → encWith p a = Config.freeNanResult a)) ∧
    (∀ p : Params, f32val a ≠ .nan → (encWith p a = .outOfRange ↔ rejects a = true))

/-- R114: the encoder uses the normalised regime for an accepted operand exactly when its magnitude is at least
`2^-13`, which is when `Ef > 113`, and the soft-underflow regime otherwise, under every parameter setting; in
the normalised regime `Ef` is in 114..129, and 129 only for -4.0. -/
def Obligations.RegimeIsChosenAtTwoToTheMinusThirteen : Prop :=
  ∀ a : F32, rejects a = false →
    (fieldEf a > 113 ↔ (2 : ℚ) ^ (-13 : ℤ) ≤ |finiteValue a|) ∧
    (¬ fieldEf a > 113 ↔ |finiteValue a| < (2 : ℚ) ^ (-13 : ℤ)) ∧
    (fieldEf a > 113 → 114 ≤ fieldEf a ∧ fieldEf a ≤ 129) ∧
    (fieldEf a = 129 → a = 0xC0800000#32) ∧
    (∀ p : Params, encWord p a =
      if (2 : ℚ) ^ (-13 : ℤ) ≤ |finiteValue a| then encNormal p a else encSoft p a) ∧
    (∀ p : Params, encWith p a = .ok (encWord p a))

/-- 41_encoder.md section 4, ceiling rounding: the rounded mantissa is the ceiling of `Mf / 4096`, in 0..2048, and 2048 exactly in the carry-out
case. (At `Mf = 0` the ceiling is the special case of decision D9, log 16.) -/
def Obligations.MantissaRoundingIsTheCeiling : Prop :=
  ∀ mf : Nat, mf < 2 ^ 23 →
    (ceilMantissa mf : ℤ) = ⌈(mf : ℚ) / 4096⌉ ∧ ceilMantissa mf ≤ 2048 ∧
    (ceilMantissa mf = 2048 ↔ 0x7FF000 < mf) ∧ (carryOut mf = true ↔ 0x7FF000 < mf) ∧
    (1 ≤ mf → ceilMantissa mf = ((mf - 1) >>> 12) + 1)

/-- 41_encoder.md section 4, positive operands (decision D10 at carry-out, log 8): the word has the exponent
`Ef - 113`, sign 0 and the ceiling in 11 bits. -/
def Obligations.EncOfAPositiveNormalisedOperand : Prop :=
  ∀ (a : F32) (s : State), rejects a = false → fieldEf a > 113 → fieldSf a = 0 →
    ∃ (t : State) (y : Hsnr), exec (.enc a) s = .next t ∧
      t.results = s.results ++ [.enc (.ok y)] ∧ t.encOor = false ∧ t.encY = y ∧
      fieldE y = fieldEf a - 113 ∧ fieldS y = 0 ∧ fieldM y = (fieldMf a + 4095) / 4096 % 2048

/-- 41_encoder.md section 4, negative operands (decision D8, log 16): the mantissa is reflected, and the
exponent is renormalised to `Ef - 114` exactly when the reflected field is 0. -/
def Obligations.EncOfANegativeNormalisedOperand : Prop :=
  ∀ (a : F32) (s : State), rejects a = false → fieldEf a > 113 → fieldSf a = 1 →
    ∃ (t : State) (y : Hsnr), exec (.enc a) s = .next t ∧
      t.results = s.results ++ [.enc (.ok y)] ∧ t.encOor = false ∧ t.encY = y ∧
      fieldS y = 1 ∧ fieldM y = (2048 - (fieldMf a + 4095) / 4096) % 2048 ∧
      fieldE y = if fieldM y = 0 then fieldEf a - 114 else fieldEf a - 113

/-- R121: in the soft-underflow regime the exponent field is 0 and `T` is the operand's value times `2^24`,
rounded, an exact rational of magnitude below 2048 before rounding; its magnitude is `sig / 2^sh`, or
`Mf * 2^-125` for a zero or subnormal; and `T = 0` when `Ef <= 101`. Under each setting of the tie rule
(decision D5, log 5) `T` is that setting's rounding. -/
def Obligations.SoftUnderflowTIsTheRoundedValue : Prop :=
  ∀ (tie : SuTie) (a : F32), fieldEf a ≤ 113 →
    softT tie a = roundTie tie (finiteValue a * 2 ^ 24) ∧
    (fieldEf a ≤ 101 → softT tie a = 0 ∧ |finiteValue a * 2 ^ 24| < 1 / 2) ∧
    |finiteValue a * 2 ^ 24| < 2048 ∧
    (1 ≤ fieldEf a → |finiteValue a * 2 ^ 24| =
      ((2 ^ 23 + fieldMf a : ℕ) : ℚ) / (2 : ℚ) ^ (126 - fieldEf a)) ∧
    (fieldEf a = 0 → |finiteValue a * 2 ^ 24| = (fieldMf a : ℚ) * (2 : ℚ) ^ (-125 : ℤ)) ∧
    ∃ y : Hsnr, enc a = .ok y ∧ fieldE y = 0

/-- R123: a soft-underflow word has bits 15:12 zero and bits 11:0 the 12-bit two's complement of `T`, for
every parameter setting that gives the word (`SU_OVF = any` gives none at `T = +2048`). -/
def Obligations.SoftUnderflowWordIsTInTwelveBits : Prop :=
  ∀ (p : Params) (a : F32), fieldEf a ≤ 113 →
    (p.suOvf = .wrap ∨ softT p.suTie a ≠ 2048) →
    ∃ y : Hsnr, encWith p a = .ok y ∧ y.extractLsb' 12 4 = 0 ∧
      y.extractLsb' 0 12 = trunc 12 (roundTie p.suTie (finiteValue a * 2 ^ 24)) ∧
      (softT p.suTie a ≠ 2048 →
        viewT y = roundTie p.suTie (finiteValue a * 2 ^ 24) ∧
        (fieldS y = 1 ↔ roundTie p.suTie (finiteValue a * 2 ^ 24) < 0))

/-- 41_encoder.md section 5, `T = +2048` (decision D6, log 6): under every tie rule these are the 4096
operands `0x38FFF000` to `0x38FFFFFF`; the machine gives them `0x0800`, of the wrong sign; with
`SU_OVF = any` their word is free. -/
def Obligations.SoftUnderflowOverflowOperands : Prop :=
  (∀ (tie : SuTie) (a : F32), fieldEf a ≤ 113 →
    -2048 ≤ softT tie a ∧ softT tie a ≤ 2048 ∧ (softT tie a = 2048 ↔ softOverflow a)) ∧
  (∀ a : F32, softOverflow a →
    enc a = .ok 0x0800#16 ∧ 0 < finiteValue a ∧ hval 0x0800#16 = -(2 : ℚ) ^ (-13 : ℤ)) ∧
  (∀ a : F32, 0xB8FFF000 ≤ a.toNat → a.toNat ≤ 0xB8FFFFFF → enc a = .ok 0x0800#16) ∧
  (∀ (p : Params) (a : F32), p.suOvf = .any → softOverflow a →
    encWith p a = .ok (Config.freeOverflowWord a))

/-- 41_encoder.md section 6: zeros and subnormals of either sign, and every operand whose scaled magnitude is
below one half, give the zero word under every parameter setting, so bit 11 of the result is not the
operand's sign. -/
def Obligations.TinyOperandsGiveTheZeroWord : Prop :=
  ∀ (p : Params) (a : F32), fieldEf a ≤ 101 → encWith p a = .ok 0x0000#16

/-- 41_encoder.md section 6, carry-out of either sign (decision D10, log 8): the word has mantissa 0, and its
value is a power of two of about half the operand's magnitude; with the setting `any` of the model's carry-out
parameter (93_implementation_defined.md U2 and U3, log 8) the operand is accepted all the same and its word is
free. -/
def Obligations.CarryOutGivesAboutHalfTheOperand : Prop :=
  ∀ a : F32,
    (positiveCarryOut a → rejects a = false ∧
      enc a = .ok (pack ((fieldEf a : ℤ) - 113) 0 0) ∧
      hval (pack ((fieldEf a : ℤ) - 113) 0 0) = (2 : ℚ) ^ ((fieldEf a : ℤ) - 127)) ∧
    (negativeCarryOut a → rejects a = false ∧
      enc a = .ok (pack ((fieldEf a : ℤ) - 114) 1 0) ∧
      hval (pack ((fieldEf a : ℤ) - 114) 1 0) = -(2 : ℚ) ^ ((fieldEf a : ℤ) - 127)) ∧
    (positiveCarryOut a ∨ negativeCarryOut a →
      (2 : ℚ) ^ ((fieldEf a : ℤ) - 127) * (2 - 1 / 2048) < |finiteValue a| ∧
      |finiteValue a| < (2 : ℚ) ^ ((fieldEf a : ℤ) - 126)) ∧
    (∀ p : Params, p.carry = .any → positiveCarryOut a ∨ negativeCarryOut a →
      encWith p a = .ok (Config.freeCarryWord a))

/-- 41_encoder.md section 6, powers of two (decisions D8 and D9, log 16): every accepted power of two of the
normalised regime is encoded exactly, the negative ones with the renormalised exponent. -/
def Obligations.PowersOfTwoAreEncodedExactly : Prop :=
  ∀ e : Nat, 114 ≤ e → e ≤ 129 →
    enc (f32 1 e 0) = .ok (pack ((e : ℤ) - 114) 1 0) ∧
    hval (pack ((e : ℤ) - 114) 1 0) = finiteValue (f32 1 e 0) ∧
    (e ≤ 128 → enc (f32 0 e 0) = .ok (pack ((e : ℤ) - 113) 0 0) ∧
      hval (pack ((e : ℤ) - 113) 0 0) = finiteValue (f32 0 e 0))

/-- 41_encoder.md section 7: `HSNR.ENC` completes from every state, and what it returns is the pseudocode
evaluated in plain arithmetic on the operand read as one number (all decisions of the spec at their
defaults, logs 5 to 8 and 16). -/
def Obligations.EncIsThePseudocodeInPlainArithmetic : Prop :=
  ∀ (a : F32) (s : State), ∃ t : State, exec (.enc a) s = .next t ∧
    t.results = s.results ++ [.enc (encArithmetic a)]

/-- 41_encoder.md sections 2, 5 and 6 (the parameters of 00_scope.md section 5; logs 5 to 8): every
parameter setting gives every operand the machine's result, except on the operands the parameters are
about: NaNs, ties of the soft-underflow rounding, carry-out and `T = +2048`. -/
def Obligations.ParameterSettingsDifferOnlyOnTheirOperands : Prop :=
  ∀ (p : Params) (a : F32), isNaN a = false → ¬ softTie a → ¬ grosslyWrong a →
    encWith p a = enc a

/-! ## Accuracy -/

/-- 41_encoder.md section 6, accuracy: when no flagged case applies, the magnitude is rounded away from zero
by less than one step of the operand's binade, keeping the sign, in the normalised regime, and to nearest in
the soft-underflow regime. -/
def Obligations.EncodedValueIsNearTheOperand : Prop :=
  ∀ a : F32, rejects a = false → ¬ grosslyWrong a →
    ∃ y : Hsnr, enc a = .ok y ∧
      (fieldEf a > 113 →
        0 ≤ |hval y| - |finiteValue a| ∧
        |hval y| - |finiteValue a| < (2 : ℚ) ^ ((fieldEf a : ℤ) - 138) ∧
        0 < hval y * finiteValue a) ∧
      (fieldEf a ≤ 113 → |hval y - finiteValue a| ≤ (2 : ℚ) ^ (-25 : ℤ))

/-- 43_properties.md, where the encoded value is grossly wrong (decisions D6 and D10, logs 6 and 8): an
accepted operand's encoded value differs from it by more than one step of the operand's binade exactly in
the three flagged classes. -/
def Obligations.GrossErrorsAreExactlyTheFlaggedClasses : Prop :=
  ∀ a : F32, rejects a = false →
    ∃ y : Hsnr, enc a = .ok y ∧ (binadeStep a < |hval y - finiteValue a| ↔ grosslyWrong a)

/-! ## Laws of the pair -/

/-- 43_properties.md, round-trip closure (decisions D7 to D9, log 16): every decoded word encodes back to
itself, with no exception, under every parameter setting. -/
def Obligations.EveryDecodedWordEncodesToItself : Prop :=
  ∀ (w : Hsnr) (p : Params), encWith p (dec w) = .ok w

/-- 43_properties.md: `DEC` is injective, `ENC` reaches every word, and quantising twice is quantising
once. -/
def Obligations.DecIsInjectiveAndEncIsOnto : Prop :=
  (∀ w v : Hsnr, dec w = dec v → w = v) ∧
  (∀ w : Hsnr, ∃ a : F32, outsideRange (f32val a) = false ∧ enc a = .ok w) ∧
  (∀ (a : F32) (y : Hsnr), enc a = .ok y → enc (dec y) = .ok y)

/-- 43_properties.md, the lossy round trip: decoding an encoded operand gives the pattern back exactly for the
results of `DEC`, and the value back exactly for those and for minus zero. -/
def Obligations.OnlyDecodedPatternsSurviveEncoding : Prop :=
  ∀ a : F32, rejects a = false → ∃ y : Hsnr, enc a = .ok y ∧
    (dec y = a ↔ ∃ w : Hsnr, dec w = a) ∧
    (f32val (dec y) = f32val a ↔ (∃ w : Hsnr, dec w = a) ∨ a = 0x80000000#32)

/-- 43_properties.md, sign symmetry (decisions D5 and D6, logs 5 and 6): below the flagged operands,
negating a soft-underflow operand negates the decoded value, except for one step on ties under `up`; for the
flagged operands and their negatives the two words are equal. -/
def Obligations.SoftUnderflowIsSymmetricInSign : Prop :=
  (∀ (p : Params) (a : F32), fieldEf a ≤ 113 → fieldSf a = 0 → ¬ softOverflow a →
    ∃ y z : Hsnr, encWith p a = .ok y ∧ encWith p (negatePattern a) = .ok z ∧
      (p.suTie ≠ .up ∨ ¬ softTie a → f32val (dec z) = .finite (-hval y)) ∧
      (p.suTie = .up → softTie a → hval y + hval z = (2 : ℚ) ^ (-24 : ℤ))) ∧
  (∀ a : F32, softOverflow a →
    enc a = .ok 0x0800#16 ∧ enc (negatePattern a) = .ok 0x0800#16)

/-- 43_properties.md, `ENC` is not monotone (decisions D6 and D10, logs 6 and 8): at the top of every binade,
for both signs, and at the top of the positive soft-underflow range, the next operand away from zero gets a
word on the wrong side. -/
def Obligations.EncIsNotMonotone : Prop :=
  (∀ e : Nat, 114 ≤ e → e ≤ 127 → ∃ y z : Hsnr,
    enc (f32 0 e 0x7FF000) = .ok y ∧ enc (f32 0 e 0x7FF001) = .ok z ∧
    finiteValue (f32 0 e 0x7FF000) < finiteValue (f32 0 e 0x7FF001) ∧ hval z < hval y) ∧
  (∀ e : Nat, 114 ≤ e → e ≤ 128 → ∃ y z : Hsnr,
    enc (f32 1 e 0x7FF000) = .ok y ∧ enc (f32 1 e 0x7FF001) = .ok z ∧
    finiteValue (f32 1 e 0x7FF001) < finiteValue (f32 1 e 0x7FF000) ∧ hval y < hval z) ∧
  (enc 0x38FFEFFF#32 = .ok 0x07FF#16 ∧ enc 0x38FFF000#32 = .ok 0x0800#16 ∧
    hval 0x0800#16 < hval 0x07FF#16)

/-- 43_properties.md, the boundary values the source gives, as patterns. -/
def Obligations.BoundaryValuesOfTheSource : Prop :=
  dec 0x0000#16 = 0x00000000#32 ∧ dec 0x0001#16 = 0x33800000#32 ∧
  dec 0xF7FF#16 = 0x407FF000#32 ∧ dec 0xF800#16 = 0xC0800000#32 ∧
  dec 0x0FFF#16 = 0xB3800000#32 ∧
  enc 0xC0800000#32 = .ok 0xF800#16 ∧ enc 0x40800000#32 = .outOfRange ∧
  enc 0x407FF000#32 = .ok 0xF7FF#16

/-! ## The machine -/

/-- 00_scope.md section 4 (decision D20, log 1): when the host's next descriptor is `d`, a step runs the
operation `d` decodes to, and the host then moves on by one descriptor; and after `withFetchWord` a step
runs the operation the decoder reads from the table word. -/
def Obligations.StepRunsTheDecodedOperation : Prop :=
  (∀ (s : State) (d : Descriptor) (rest : List Descriptor), s.pending = d :: rest →
    ∃ t, exec (decode d) s = .next t ∧
      step s = .next { t with pending := rest, done := s.done ++ [d] }) ∧
  (∀ (s : State) (n w : Nat) (i : Instr), decodeTableWord n w = some i →
    ∃ t, exec i (s.withFetchWord n w) = .next t ∧
      step (s.withFetchWord n w) = .next t.advance)

/-- 60_exceptions.md section 1 and 70_reset_and_hazards.md section 5: no step from any state is refused, and
the only stop is the end of the run, when the host has no descriptor left (log 4). -/
def Obligations.OnlyTheEndOfTheRunStops : Prop :=
  ∀ s : State, SafeStep s ∧ (step s = .fault .runOver ↔ s.pending = [])

/-- 00_scope.md section 4 and 20_memory.md section 2 (logs 1, 9 and 10): every step keeps result number i the
result of descriptor number i, the ports at the last operand driven onto each, and one draw per
operation. -/
def Obligations.StepKeepsResultsTrueToTheProgram : Prop :=
  ∀ s t : State, Consistent s → step s = .next t →
    Consistent t ∧ t.program = s.program ∧ t.position = s.position + 1

/-- 10_state.md section 3: before the first operation there is no result and no driven port (log 2), and the
invariant holds. -/
def Obligations.ResetHasNoResultAndIsConsistent : Prop :=
  Consistent State.reset ∧ State.reset.results = [] ∧ State.reset.encA = none ∧
    State.reset.decA = none ∧ step State.reset = .fault .runOver

/-- 00_scope.md section 4, 20_memory.md section 2 and 70_reset_and_hazards.md section 5 (decision D20): from
any state, running any list of descriptors the host still has collects one result per descriptor, in order,
each the result of that descriptor's own operation, whatever came before or after it. -/
def Obligations.RunCollectsTheResultOfEachDescriptor : Prop :=
  ∀ (ds rest : List Descriptor) (s : State), s.pending = ds ++ rest →
    ∃ t : State, Sys2Proof.core.run ds.length s = .next t ∧
      t.results = s.results ++ ds.map (fun d =>
        match decode d with
        | .enc a => .enc (encArithmetic a)
        | .dec _ w => .dec (dec w)) ∧
      t.pending = rest ∧ t.done = s.done ++ ds

/-- R47: presenting the same operand again gives the same result, whatever happened in between: the result of
an operation does not depend on the state. -/
def Obligations.SameOperandSameResult : Prop :=
  ∀ i : Instr, ∃ r : Result, ∀ s t : State, exec i s = .next t →
    t.results = s.results ++ [r] ∧
    ∃ u : State, exec i t = .next u ∧ u.results = t.results ++ [r] ∧
      u.encA = t.encA ∧ u.decA = t.decA ∧ u.pending = s.pending ∧ u.done = s.done

/-- 20_memory.md section 2, independence of the two units: neither reads what the other writes. Either order of
two operations, one on each unit, leaves the same ports and outputs and gives each operation the same result.
Two operations in progress in one instant are not one step of the model (log 13, the model's choice); the draw
counter and the ports held are the model's too (logs 9 and 10). -/
def Obligations.TheTwoUnitsDoNotInteract : Prop :=
  ∀ (a : F32) (x : BitVec 16) (w : Hsnr) (s : State), ∃ (t t' u u' : State) (r q : Result),
    exec (.enc a) s = .next t ∧ exec (.dec x w) t = .next t' ∧
    exec (.dec x w) s = .next u ∧ exec (.enc a) u = .next u' ∧
    t'.results = s.results ++ [r, q] ∧ u'.results = s.results ++ [q, r] ∧
    { t' with results := u'.results } = u' ∧
    t'.encOor = u'.encOor ∧ t'.encY = u'.encY ∧ t'.decY = u'.decY

/-- 10_state.md section 1, the ports (decisions D1 and D3, log 9): in every state the outputs are the
functions of the operands driven. -/
def Obligations.PortsAreFunctionsOfTheOperands : Prop :=
  ∀ s : State,
    (∀ a : F32, s.encA = some a →
      (s.encOor = true ↔ enc a = .outOfRange) ∧ s.encOor = rejects a ∧
      (∀ y : Hsnr, enc a = .ok y ↔ s.encOor = false ∧ s.encY = y) ∧ s.sampleEnc = enc a) ∧
    (∀ w : Hsnr, s.decA = some w → f32val s.decY = .finite (hval w))

/-- 60_exceptions.md section 4 (R186, R187): the error is a value of the result, not a transfer of control. The
rejected operation completes, and the operation after it is presented at once and has the result it would have
had without the rejection. That the error is one element of the result list in a next state is
70_reset_and_hazards.md R210 (decision D20) and the model's reading (log 19). -/
def Obligations.TheErrorIsAResultAndNotATrap : Prop :=
  ∀ (a : F32) (s : State), enc a = .outOfRange →
    ∃ t : State, exec (.enc a) s = .next t ∧ t.encOor = true ∧
      t.results = s.results ++ [.enc .outOfRange] ∧
      t.decA = s.decA ∧ t.pending = s.pending ∧ t.done = s.done ∧
      ∀ i : Instr, ∃ (u v : State) (r : Result), exec i t = .next u ∧ exec i s = .next v ∧
        u.results = t.results ++ [r] ∧ v.results = s.results ++ [r]
end

