-- ==== Sys2Proof/Laws/Operands.lean ====
section
/-! SUPPORT. The fields of both formats, packing and the signed views as plain arithmetic, so that a
claim about bits becomes one that `omega` decides. -/

namespace Sys2Proof.Machine

theorem fieldM_eq (w : Hsnr) : fieldM w = w.toNat % 2048 := by
  simp [fieldM, BitVec.extractLsb'_toNat]

theorem fieldS_eq (w : Hsnr) : fieldS w = w.toNat / 2048 % 2 := by
  simp [fieldS, BitVec.extractLsb'_toNat, Nat.shiftRight_eq_div_pow]

theorem fieldE_eq (w : Hsnr) : fieldE w = w.toNat / 4096 := by
  have := w.isLt
  simp [fieldE, BitVec.extractLsb'_toNat, Nat.shiftRight_eq_div_pow]
  omega

theorem fieldMf_eq (x : F32) : fieldMf x = x.toNat % 8388608 := by
  simp [fieldMf, BitVec.extractLsb'_toNat]

theorem fieldEf_eq (x : F32) : fieldEf x = x.toNat / 8388608 % 256 := by
  simp [fieldEf, BitVec.extractLsb'_toNat, Nat.shiftRight_eq_div_pow]

theorem fieldSf_eq (x : F32) : fieldSf x = x.toNat / 2147483648 := by
  have := x.isLt
  simp [fieldSf, BitVec.extractLsb'_toNat, Nat.shiftRight_eq_div_pow]
  omega

theorem magnitude_eq (x : F32) : magnitude x = x.toNat % 2147483648 := by
  simp [magnitude, BitVec.extractLsb'_toNat]

theorem fieldM_lt (w : Hsnr) : fieldM w < 2048 := by rw [fieldM_eq]; omega
theorem fieldS_lt (w : Hsnr) : fieldS w < 2 := by rw [fieldS_eq]; omega
theorem fieldE_lt (w : Hsnr) : fieldE w < 16 := by have := w.isLt; rw [fieldE_eq]; omega
theorem fieldMf_lt (x : F32) : fieldMf x < 8388608 := by rw [fieldMf_eq]; omega
theorem fieldEf_lt (x : F32) : fieldEf x < 256 := by rw [fieldEf_eq]; omega
theorem fieldSf_lt (x : F32) : fieldSf x < 2 := by have := x.isLt; rw [fieldSf_eq]; omega

/-- A word is its three fields. -/
theorem toNat_of_fields (w : Hsnr) :
    w.toNat = 4096 * fieldE w + 2048 * fieldS w + fieldM w := by
  rw [fieldE_eq, fieldS_eq, fieldM_eq]; omega

/-- A binary32 pattern is its three fields. -/
theorem toNat_of_f32_fields (x : F32) :
    x.toNat = 2147483648 * fieldSf x + 8388608 * fieldEf x + fieldMf x := by
  have := x.isLt
  rw [fieldSf_eq, fieldEf_eq, fieldMf_eq]; omega

theorem magnitude_of_fields (x : F32) : magnitude x = 8388608 * fieldEf x + fieldMf x := by
  rw [magnitude_eq, fieldEf_eq, fieldMf_eq]; omega

theorem toNat_f32 {s e f : Nat} (hs : s < 2) (he : e < 256) (hf : f < 8388608) :
    (f32 s e f).toNat = 2147483648 * s + 8388608 * e + f := by
  have h1 : (8388608 * e + f) < 2147483648 := by omega
  have h2 : e <<< 23 ||| f = 8388608 * e + f := by
    rw [← Nat.shiftLeft_add_eq_or_of_lt (by simpa using hf), Nat.shiftLeft_eq]; omega
  simp only [f32, BitVec.toNat_append, BitVec.toNat_ofNat]
  rw [Nat.mod_eq_of_lt (show s < 2 ^ 1 by omega), Nat.mod_eq_of_lt (show e < 2 ^ 8 by omega),
    Nat.mod_eq_of_lt (show f < 2 ^ 23 by omega), h2,
    ← Nat.shiftLeft_add_eq_or_of_lt (by simpa using h1), Nat.shiftLeft_eq]
  omega

theorem fieldSf_f32 {s e f : Nat} (hs : s < 2) (he : e < 256) (hf : f < 8388608) :
    fieldSf (f32 s e f) = s := by rw [fieldSf_eq, toNat_f32 hs he hf]; omega

theorem fieldEf_f32 {s e f : Nat} (hs : s < 2) (he : e < 256) (hf : f < 8388608) :
    fieldEf (f32 s e f) = e := by rw [fieldEf_eq, toNat_f32 hs he hf]; omega

theorem fieldMf_f32 {s e f : Nat} (hs : s < 2) (he : e < 256) (hf : f < 8388608) :
    fieldMf (f32 s e f) = f := by rw [fieldMf_eq, toNat_f32 hs he hf]; omega

theorem toNat_trunc (n : Nat) (i : Int) : ((trunc n i).toNat : Int) = i % 2 ^ n := by
  have h : (0 : Int) ≤ i % 2 ^ n := Int.emod_nonneg _ (by positivity)
  simp only [trunc, BitVec.toNat_ofInt]
  push_cast
  omega

/-- `pack` on fields that fit. -/
theorem toNat_pack {e s m : Nat} (he : e < 16) (hs : s < 2) (hm : m < 2048) :
    (pack e s m).toNat = 4096 * e + 2048 * s + m := by
  have h2 : s <<< 11 ||| m = 2048 * s + m := by
    rw [← Nat.shiftLeft_add_eq_or_of_lt (by simpa using hm), Nat.shiftLeft_eq]; omega
  have ht : ∀ n k : Nat, k < 2 ^ n → (trunc n (k : Int)).toNat = k := by
    intro n k hk
    simp [trunc, BitVec.toNat_ofNat, Nat.mod_eq_of_lt hk]
  simp only [pack, BitVec.toNat_append]
  rw [ht 4 e (by omega), ht 1 s (by omega), ht 11 m (by omega), h2,
    ← Nat.shiftLeft_add_eq_or_of_lt (by omega), Nat.shiftLeft_eq]
  omega

theorem fieldSf_cases (x : F32) : fieldSf x = 0 ∨ fieldSf x = 1 := by
  have := fieldSf_lt x; omega

theorem fieldS_cases (w : Hsnr) : fieldS w = 0 ∨ fieldS w = 1 := by
  have := fieldS_lt w; omega

theorem f32val_of_ne {x : F32} (h : fieldEf x ≠ 255) : f32val x = .finite (finiteValue x) := by
  simp [f32val, h]

theorem isNaN_iff (a : F32) : isNaN a = true ↔ fieldEf a = 255 ∧ fieldMf a ≠ 0 := by
  simp [isNaN]

/-- The range check in terms of the three fields. -/
theorem rejects_iff (a : F32) :
    rejects a = true ↔
      (fieldSf a = 0 ∧ 0x407FF000 < 8388608 * fieldEf a + fieldMf a) ∨
      (fieldSf a = 1 ∧ 0x40800000 < 8388608 * fieldEf a + fieldMf a) := by
  simp [rejects, magnitude_of_fields]

/-- An accepted operand has a small exponent field, so it is a finite number. -/
theorem fieldEf_of_accepted {a : F32} (h : rejects a = false) : fieldEf a ≤ 129 := by
  have h' : ¬ rejects a = true := by simp [h]
  rw [rejects_iff] at h'
  have := fieldSf_cases a
  have := fieldMf_lt a
  omega

/-- The pattern test for a NaN is the value test. -/
theorem isNaN_iff_f32val (a : F32) : isNaN a = true ↔ f32val a = .nan := by
  rw [isNaN_iff]
  unfold f32val
  split <;> (try split) <;> (try split) <;> simp_all

/-- Under every parameter setting an accepted operand is given a word, that of its regime. -/
theorem encWith_of_accepted (p : Params) {a : F32} (h : rejects a = false) :
    encWith p a = .ok (encWord p a) := by
  have hn : ¬ isNaN a = true := fun k => by
    have := (isNaN_iff a).1 k
    have := fieldEf_of_accepted h
    omega
  simp [encWith, hn, h]

end Sys2Proof.Machine
end

