-- ==== Sys2Proof/Laws/State.lean ====
section
/-! SUPPORT. One lemma per field of State per update, each true by unfolding. -/

namespace Sys2Proof.Machine

@[simp] theorem driveEnc_encA (s : State) (a : F32) : (s.driveEnc a).encA = some a := rfl
@[simp] theorem driveEnc_decA (s : State) (a : F32) : (s.driveEnc a).decA = s.decA := rfl
@[simp] theorem driveEnc_pending (s : State) (a : F32) : (s.driveEnc a).pending = s.pending := rfl
@[simp] theorem driveEnc_done (s : State) (a : F32) : (s.driveEnc a).done = s.done := rfl
@[simp] theorem driveEnc_results (s : State) (a : F32) : (s.driveEnc a).results = s.results := rfl
@[simp] theorem driveEnc_draws (s : State) (a : F32) : (s.driveEnc a).draws = s.draws := rfl

@[simp] theorem driveDec_encA (s : State) (w : Hsnr) : (s.driveDec w).encA = s.encA := rfl
@[simp] theorem driveDec_decA (s : State) (w : Hsnr) : (s.driveDec w).decA = some w := rfl
@[simp] theorem driveDec_pending (s : State) (w : Hsnr) : (s.driveDec w).pending = s.pending := rfl
@[simp] theorem driveDec_done (s : State) (w : Hsnr) : (s.driveDec w).done = s.done := rfl
@[simp] theorem driveDec_results (s : State) (w : Hsnr) : (s.driveDec w).results = s.results := rfl
@[simp] theorem driveDec_draws (s : State) (w : Hsnr) : (s.driveDec w).draws = s.draws := rfl

@[simp] theorem collect_encA (s : State) (r : Result) : (s.collect r).encA = s.encA := rfl
@[simp] theorem collect_decA (s : State) (r : Result) : (s.collect r).decA = s.decA := rfl
@[simp] theorem collect_pending (s : State) (r : Result) : (s.collect r).pending = s.pending := rfl
@[simp] theorem collect_done (s : State) (r : Result) : (s.collect r).done = s.done := rfl
@[simp] theorem collect_results (s : State) (r : Result) :
    (s.collect r).results = s.results ++ [r] := rfl
@[simp] theorem collect_draws (s : State) (r : Result) : (s.collect r).draws = s.draws + 1 := rfl

@[simp] theorem advance_encA (s : State) : s.advance.encA = s.encA := rfl
@[simp] theorem advance_decA (s : State) : s.advance.decA = s.decA := rfl
@[simp] theorem advance_pending (s : State) : s.advance.pending = s.pending.drop 1 := rfl
@[simp] theorem advance_done (s : State) : s.advance.done = s.done ++ s.pending.take 1 := rfl
@[simp] theorem advance_results (s : State) : s.advance.results = s.results := rfl
@[simp] theorem advance_draws (s : State) : s.advance.draws = s.draws := rfl

@[simp] theorem place_encA (s : State) (d : Descriptor) : (s.place d).encA = s.encA := rfl
@[simp] theorem place_decA (s : State) (d : Descriptor) : (s.place d).decA = s.decA := rfl
@[simp] theorem place_pending (s : State) (d : Descriptor) :
    (s.place d).pending = d :: s.pending.drop 1 := rfl
@[simp] theorem place_done (s : State) (d : Descriptor) : (s.place d).done = s.done := rfl
@[simp] theorem place_results (s : State) (d : Descriptor) : (s.place d).results = s.results := rfl
@[simp] theorem place_draws (s : State) (d : Descriptor) : (s.place d).draws = s.draws := rfl

theorem fetch_of_pending {s : State} {d : Descriptor} {rest : List Descriptor}
    (h : s.pending = d :: rest) : s.fetch = some d := by simp [State.fetch, h]

theorem fetch_none_iff (s : State) : s.fetch = none ↔ s.pending = [] := by
  cases h : s.pending <;> simp [State.fetch, h]

end Sys2Proof.Machine
end

