-- ==== Sys2Proof/Laws/Ops.lean ====
section
/-! SUPPORT. What each shared operation and each meaning can do, said once; later proofs cite these
and do not unfold `exec` or `step`. -/

namespace Sys2Proof.Machine

/-- All that `HSNR.ENC` does: the port is driven, one result is collected. -/
theorem exec_enc (a : F32) (s : State) :
    exec (.enc a) s = .next ((s.driveEnc a).collect (.enc (enc a))) := rfl

/-- All that `HSNR.DEC` does: the port is driven, one result is collected. -/
theorem exec_dec (x : BitVec 16) (w : Hsnr) (s : State) :
    exec (.dec x w) s = .next ((s.driveDec w).collect (.dec (dec w))) := rfl

/-- An operation appends its own result, uses one draw, and leaves the host's program alone. -/
theorem exec_inversion {i : Instr} {s t : State} (h : exec i s = .next t) :
    t.results = s.results ++ [resultOfInstr i] ∧ t.draws = s.draws + 1 ∧
      t.pending = s.pending ∧ t.done = s.done := by
  cases i with
  | enc a => cases h; exact ⟨rfl, rfl, rfl, rfl⟩
  | dec x w => cases h; exact ⟨rfl, rfl, rfl, rfl⟩

/-- A step, when the host has a descriptor left. -/
theorem step_of_pending {s t : State} {d : Descriptor} {rest : List Descriptor}
    (hp : s.pending = d :: rest) (he : exec (decode d) s = .next t) : step s = .next t.advance := by
  simp only [step, fetch_of_pending hp, he]

/-- All that a step going on can have done. -/
theorem step_inversion {s u : State} (h : step s = .next u) :
    ∃ d rest t, s.pending = d :: rest ∧ exec (decode d) s = .next t ∧ u = t.advance := by
  cases hp : s.pending with
  | nil => simp [step, (fetch_none_iff s).2 hp] at h
  | cons d rest =>
    cases he : exec (decode d) s with
    | next t =>
      rw [step_of_pending hp he] at h
      exact ⟨d, rest, t, rfl, he, by cases h; rfl⟩
    | fault r => simp [step, fetch_of_pending hp, he] at h
    | refused r => simp [step, fetch_of_pending hp, he] at h

/-- Every operation has a next state, from every state. -/
theorem exec_total (i : Instr) (s : State) : ∃ t, exec i s = .next t := by
  cases i with
  | enc a => exact ⟨_, exec_enc a s⟩
  | dec x w => exact ⟨_, exec_dec x w s⟩

/-- One more step of a run. -/
theorem core_run_succ {s t : State} (k : Nat) (h : step s = .next t) :
    Host.Core.run core (k + 1) s = Host.Core.run core k t := by
  have h' : Host.Core.step core s = .next t := h
  simp only [Host.Core.run, h']

/-- What the host reads off the encoder's ports is the encoder's result. -/
theorem sampleEnc_of_driven {s : State} {a : F32} (h : s.encA = some a) : s.sampleEnc = enc a := by
  cases he : enc a <;> simp [State.sampleEnc, State.encOor, State.encY, h, he, oorOf]

theorem oorOf_eq_true_iff (r : EncResult) : oorOf r = true ↔ r = .outOfRange := by
  cases r <;> simp [oorOf]

/-- At the machine's parameter setting a NaN is rejected like any operand out of range. -/
theorem enc_eq (a : F32) : enc a = if rejects a then .outOfRange else .ok (encWord params a) := rfl

end Sys2Proof.Machine
end

