-- ==== Sys2Proof/Laws/PerInstr.lean ====
section
/-! SUPPORT. Statements about every operation as syntax, one lemma per constructor. -/

namespace Sys2Proof.Laws.RowCovers

/-- The operation's descriptor lies in the operation's own row of the opcode map, and in no other
(30_encoding.md R77). -/
def Statement (i : Instr) : Prop :=
  ∀ r ∈ opcodeTable, r.covers (encode i) = true ↔ r = i.row

/-- The mask of the map picks the deciding bit. -/
theorem and_opMask (d : Descriptor) :
    d &&& 0x100000000#33 = if d.getLsbD 32 then 0x100000000#33 else 0#33 :=
  BitVec.and_twoPow d 32

theorem encode_enc_bit (a : F32) : (encode (.enc a)).getLsbD 32 = true := by
  simp only [encode]
  rw [BitVec.getLsbD_append]
  simp

theorem encode_dec_bit (x : BitVec 16) (w : Hsnr) : (encode (.dec x w)).getLsbD 32 = false := by
  simp only [encode]
  rw [BitVec.getLsbD_append]
  simp

theorem enc (a : F32) : Statement (.enc a) := by
  intro r hr
  simp only [opcodeTable, List.mem_cons, List.not_mem_nil, or_false] at hr
  have h := and_opMask (encode (.enc a))
  rw [encode_enc_bit] at h
  obtain rfl | rfl := hr <;> simp [OpcodeRow.covers, encRow, decRow, Instr.row, h]

theorem dec (x : BitVec 16) (w : Hsnr) : Statement (.dec x w) := by
  intro r hr
  simp only [opcodeTable, List.mem_cons, List.not_mem_nil, or_false] at hr
  have h := and_opMask (encode (.dec x w))
  rw [encode_dec_bit] at h
  obtain rfl | rfl := hr <;> simp [OpcodeRow.covers, encRow, decRow, Instr.row, h]

end Sys2Proof.Laws.RowCovers
end

