-- ==== Sys2Proof/Laws/Text.lean ====
section
/-! SUPPORT. The notation's small lemmas: digits, numbers of digits, comments. -/

namespace Sys2Proof.Machine

theorem hexValue_hexDigit : ∀ n < 16, hexValue (hexDigit n) = some n := by decide

theorem hexDigit_ne : ∀ n < 16, hexDigit n ≠ '-' ∧ hexDigit n ≠ ' ' := by decide

theorem length_hexDigits (k n : Nat) : (hexDigits k n).length = k := by
  induction k generalizing n with
  | zero => rfl
  | succ k ih => simp [hexDigits, ih]

theorem mem_hexDigits_ne {k n : Nat} {c : Char} (h : c ∈ hexDigits k n) : c ≠ '-' ∧ c ≠ ' ' := by
  induction k generalizing n with
  | zero => simp [hexDigits] at h
  | succ k ih =>
    simp only [hexDigits, List.mem_append, List.mem_singleton] at h
    obtain h | rfl := h
    · exact ih h
    · exact hexDigit_ne _ (Nat.mod_lt _ (by omega))

theorem hexNumberFrom_append (acc : Nat) (xs ys : List Char) :
    hexNumberFrom acc (xs ++ ys) = (hexNumberFrom acc xs).bind fun n => hexNumberFrom n ys := by
  induction xs generalizing acc with
  | nil => rfl
  | cons c cs ih => cases h : hexValue c <;> simp [hexNumberFrom, h, ih]

theorem hexNumberFrom_hexDigits (k n : Nat) : hexNumberFrom 0 (hexDigits k n) = some (n % 16 ^ k) := by
  induction k generalizing n with
  | zero => simp [hexDigits, hexNumberFrom, Nat.mod_one]
  | succ k ih =>
    rw [hexDigits, hexNumberFrom_append, ih]
    simp only [Option.bind_some, hexNumberFrom, hexValue_hexDigit _ (Nat.mod_lt n (by omega : 0 < 16))]
    rw [Nat.pow_succ', Nat.mod_mul]
    congr 1
    omega

/-- Reading back `k` written digits. -/
theorem hexNumber_hexDigits (k n : Nat) : hexNumber k (hexDigits k n) = some (n % 16 ^ k) := by
  simp [hexNumber, length_hexDigits, hexNumberFrom_hexDigits]

/-- A part of a line without a dash holds no comment. -/
theorem dropComment_append (xs ys : List Char) (h : ∀ c ∈ xs, c ≠ '-') :
    dropComment (xs ++ ys) = xs ++ dropComment ys := by
  induction xs with
  | nil => rfl
  | cons c cs ih =>
    have hc : c ≠ '-' := h c (by simp)
    rw [List.cons_append, dropComment, ih (fun d hd => h d (by simp [hd]))]
    · rfl
    · intro d hd _; exact hc hd

end Sys2Proof.Machine
end

