-- ==== Sys2Proof/Tests/Slice0.lean ====
section
/-! SUPPORT. Small tests of the definitions, with expected results from spec/95_test_vectors.md and from the
encodings of spec/30_encoding.md, and a witness for the hypotheses of each claim. -/

namespace Sys2Proof.Tests

open Sys2Proof Sys2Proof.Machine

/-! ## Well-formedness and decoding -/

/-- 30_encoding.md R76: a `HSNR.DEC` with a nonzero bit among 31:16 is not canonical. -/
theorem test_canonical_refuses_ignored_bits : (Instr.dec 0x8000#16 0xF800#16).canonical = false := by
  decide

/-- 30_encoding.md R80: the same operation is well formed all the same. -/
theorem test_well_formed_takes_ignored_bits : (Instr.dec 0x8000#16 0xF800#16).wellFormed = true := by
  decide

/-- 30_encoding.md R81: a number of 34 bits is no descriptor. -/
theorem test_decode_refuses_34_bits : decodeNat 0x200000000 = .error .notThirtyThreeBits := by
  decide

/-- 30_encoding.md R76, `1 a[31:0]`: `ENC` of 1.5, sign 0, exponent 127, fraction `10...0`. -/
theorem test_decode_enc_word :
    decode 0b1_0_01111111_10000000000000000000000#33 = .enc 0x3FC00000#32 := by decide

/-- 30_encoding.md R76, `0 x[31:16] w[15:0]`: `DEC` of E = 14, S = 1, M = 1024, the ignored bits all ones. -/
theorem test_decode_dec_word :
    decode 0b0_1111111111111111_1110_1_10000000000#33 = .dec 0xFFFF#16 0xEC00#16 := by decide

/-- The two rows of opcode_table.json, as the table numbers their bits, operand bits zero. -/
theorem test_decode_table_rows :
    decodeTableWord 40 0x100000000 = some (.enc 0) ∧ decodeTableWord 40 0 = some (.dec 0 0) := by decide

/-- 30_encoding.md R82, with a comment. -/
theorem test_parse_line : parse "ENC 0x40490FDB -- about pi".toList = some (.enc 0x40490FDB#32) := by
  decide

/-- 30_encoding.md R82 and 95_test_vectors.md P2: the two forms of an `ENC` result. -/
theorem test_render_result :
    renderResult (.enc (.ok 0xF7FF#16)) = "-> 0xF7FF".toList ∧
      renderResult (.enc .outOfRange) = "-> OutOfRange".toList := by decide

/-- 95_test_vectors.md section 2.1: `trunc_4(-1)`, `trunc_11(2048)`, `sext_12(0x800)`, `pack(16, 1, 2048)`. -/
theorem test_helpers :
    trunc 4 (-1) = 15#4 ∧ trunc 11 2048 = 0#11 ∧ sext 12 0x800#12 = -2048 ∧ zext 8 0xF#4 = 0x0F#8 ∧
      pack 16 1 2048 = 0x0800#16 := by decide

/-! ## One step -/

/-- A state whose host has one descriptor to present. -/
def ready (d : Descriptor) : State := State.reset.place d

/-- The results after one step, if it goes on. -/
def resultsAfter (s : State) : Option (List Result) :=
  match step s with
  | .next t => some t.results
  | _ => none

/-- 95_test_vectors.md P2, step 1: -4.0, where the renormalised exponent is a truncated negative number. -/
theorem test_enc_minus_four :
    resultsAfter (ready 0x1C0800000#33) = some [.enc (.ok 0xF800#16)] := by decide

/-- 95_test_vectors.md P4, step 3: negative carry-out, kept as the rules give it. -/
theorem test_enc_negative_carry_out :
    resultsAfter (ready 0x1BFFFF001#33) = some [.enc (.ok 0xD800#16)] := by decide

/-- 95_test_vectors.md P3, step 4: a negative soft-underflow word. -/
theorem test_dec_soft_negative :
    resultsAfter (ready 0x000000F58#33) = some [.dec 0xB7280000#32] := by decide

/-- 95_test_vectors.md section 2.2: S = 1, M = 0, E = 8. -/
theorem test_dec_negative_power_of_two :
    resultsAfter (ready 0x000008800#33) = some [.dec 0xBD000000#32] := by decide

/-! ## Witnesses for the hypotheses of the claims -/

theorem witness_DecodeOfEncode : (Instr.dec 0xFFFF#16 0#16).wellFormed = true ∧ 33 ≤ 33 := by decide

theorem witness_IgnoredDescriptorBits :
    (0x0FFFF1234#33).getLsbD 32 = false ∧ (0x000001234#33).getLsbD 32 = false ∧
      (0x0FFFF1234#33).extractLsb' 0 16 = (0x000001234#33).extractLsb' 0 16 ∧
      0x0FFFF1234#33 ≠ 0x000001234#33 := by decide

theorem witness_PackAndExtractors : 15 ≤ 15 ∧ 1 ≤ 1 ∧ 2047 ≤ 2047 := by decide

theorem witness_ThirteenBitView : fieldS 0xF7FF#16 = 0 ∧ fieldS 0xF800#16 = 1 := by decide

theorem witness_DifferentWords : hval 0xF800#16 = hval 0xF800#16 := rfl

theorem witness_ValueGrows_positive :
    fieldE 0x0000#16 = fieldE 0x07FF#16 ∧ fieldS 0x0000#16 = 0 ∧ fieldS 0x07FF#16 = 0 ∧
      fieldM 0x0000#16 < fieldM 0x07FF#16 := by decide

theorem witness_ValueGrows_negative :
    fieldE 0xF800#16 = fieldE 0xF801#16 ∧ fieldS 0xF800#16 = 1 ∧ fieldS 0xF801#16 = 1 ∧
      fieldM 0xF800#16 < fieldM 0xF801#16 := by decide

theorem witness_ValuesFillTheirBinade :
    (1 ≤ fieldE 0x1000#16 ∧ fieldS 0x1000#16 = 0) ∧ (1 ≤ fieldE 0xF800#16 ∧ fieldS 0xF800#16 = 1) ∧
      fieldE 0x0800#16 = 0 := by decide

theorem witness_ValuesFillTheirBinade_ends :
    (fieldM 0x1000#16 = 0 ∧ fieldS 0x17FF#16 = 0 ∧ fieldM 0x17FF#16 = 2047) ∧
      (fieldM 0xF800#16 = 0 ∧ fieldS 0xFFFF#16 = 1 ∧ fieldM 0xFFFF#16 = 2047) ∧
      (fieldE 0x0000#16 = 0 ∧ fieldS 0x0000#16 = 0 ∧ fieldM 0x0000#16 = 0) ∧
      (fieldE 0x07FF#16 = 0 ∧ fieldS 0x07FF#16 = 0 ∧ fieldM 0x07FF#16 = 2047) ∧
      (fieldE 0x0800#16 = 0 ∧ fieldS 0x0800#16 = 1 ∧ fieldM 0x0800#16 = 0) ∧
      (fieldE 0x0FFF#16 = 0 ∧ fieldS 0x0FFF#16 = 1 ∧ fieldM 0x0FFF#16 = 2047) := by decide

theorem witness_ValuesFillTheirBinade_steps :
    1 ≤ 15 ∧ 15 ≤ 15 ∧ (2048 : Int) ≤ 4095 ∧ (-4096 : Int) ≤ -2049 ∧ (-2048 : Int) ≤ 2047 := by decide

theorem witness_RegimesJoin : (-4096 : Int) ≤ -4096 ∧ (4095 : Int) ≤ 4095 := by decide

theorem witness_OrderOfWords :
    (fieldS 0x07FF#16 = 0 ∧ fieldS 0x1000#16 = 0 ∧ (0x07FF#16).toNat < (0x1000#16).toNat) ∧
      (fieldS 0x0FFF#16 = 1 ∧ fieldS 0x1800#16 = 1 ∧ fieldE 0x0FFF#16 < fieldE 0x1800#16) ∧
      (fieldE 0xF800#16 = fieldE 0xFFFF#16 ∧ fieldM 0xF800#16 < fieldM 0xFFFF#16) := by decide

theorem witness_NormalisedWords : 1 ≤ fieldE 0x1000#16 ∧ 1 ≤ fieldE 0xF800#16 := by decide

theorem witness_Tagged :
    (Tagged.normalised 1 (-4096)).legal = true ∧ (Tagged.normalised 15 4095).legal = true ∧
      (Tagged.underflow (-2048)).legal = true := by decide

theorem witness_DecCompletes_ports :
    ({ State.reset with encA := some 0x3F800000#32 } : State).encA.isSome = true ∧
      ({ State.reset with encA := some 0x3F800000#32 } : State).encOor = false := by decide

theorem witness_DecReturns_regimes :
    (fieldE 0x1000#16 ≠ 0 ∧ fieldS 0x1000#16 = 0) ∧ (fieldE 0x1800#16 ≠ 0 ∧ fieldS 0x1800#16 = 1) ∧
      fieldE 0x0FFF#16 = 0 := by decide

theorem witness_DecPattern_nonzero : f32val 0xC0800000#32 = .finite (hval 0xF800#16) := by
  decide +kernel

theorem witness_DecPattern_minus_zero : f32val 0x80000000#32 = .finite (hval 0x0000#16) := by
  decide +kernel

theorem witness_DecResults_zero : fieldEf (dec 0x0000#16) = 0 := by decide

theorem witness_EncCompletes_port :
    ({ State.reset with decA := some 0xF800#16 } : State).decA.isSome = true := by decide

theorem witness_RangeCheck_between :
    f32val 0x407FF001#32 = .finite (16773121 / 4194304) ∧
      (3.9990234375 : ℚ) < 16773121 / 4194304 ∧ (16773121 / 4194304 : ℚ) < 4 := by
  refine ⟨by decide +kernel, by norm_num, by norm_num⟩

theorem witness_RangeCheck_infinities :
    f32val 0x7F800000#32 = .posInf ∧ f32val 0xFF800000#32 = .negInf := by decide

theorem witness_NaN :
    f32val 0x7F800001#32 = .nan ∧ f32val 0xFFFFFFFF#32 = .nan ∧ f32val 0x7F800000#32 ≠ .nan ∧
      params.nanPolicy = .reject ∧ ({ params with nanPolicy := .any } : Params).nanPolicy = .any := by
  decide

theorem witness_Regime :
    (rejects 0x39000000#32 = false ∧ fieldEf 0x39000000#32 > 113) ∧
      (rejects 0x38FFFFFF#32 = false ∧ ¬ fieldEf 0x38FFFFFF#32 > 113) ∧
      (rejects 0xC0800000#32 = false ∧ fieldEf 0xC0800000#32 = 129) := by decide

theorem witness_MantissaRounding : 0 < 2 ^ 23 ∧ 0x7FFFFF < 2 ^ 23 ∧ 1 ≤ 0x7FFFFF := by decide

theorem witness_EncOfAPositive :
    rejects 0x407FF000#32 = false ∧ fieldEf 0x407FF000#32 > 113 ∧ fieldSf 0x407FF000#32 = 0 := by decide

theorem witness_EncOfANegative :
    (rejects 0xC0800000#32 = false ∧ fieldEf 0xC0800000#32 > 113 ∧ fieldSf 0xC0800000#32 = 1) ∧
      (rejects 0xB9000001#32 = false ∧ fieldEf 0xB9000001#32 > 113 ∧ fieldSf 0xB9000001#32 = 1) := by
  decide

theorem witness_SoftUnderflowT :
    (fieldEf 0x38FFFFFF#32 ≤ 113 ∧ 1 ≤ fieldEf 0x38FFFFFF#32) ∧
      (fieldEf 0x32FFFFFF#32 ≤ 101 ∧ 1 ≤ fieldEf 0x32FFFFFF#32) ∧ fieldEf 0x807FFFFF#32 = 0 := by decide

theorem witness_SoftUnderflowWord :
    (fieldEf 0x38FFF000#32 ≤ 113 ∧ params.suOvf = .wrap) ∧
      (fieldEf 0xB8FFF000#32 ≤ 113 ∧ softT .away 0xB8FFF000#32 ≠ 2048) := by decide

theorem witness_SoftUnderflowOverflow :
    softOverflow 0x38FFF000#32 ∧ softOverflow 0x38FFFFFF#32 ∧ fieldEf 0x38FFF000#32 ≤ 113 ∧
      0xB8FFF000 ≤ (0xB8FFF000#32).toNat ∧ (0xB8FFF000#32).toNat ≤ 0xB8FFFFFF ∧
      ({ params with suOvf := .any } : Params).suOvf = .any := by decide

theorem witness_TinyOperands : fieldEf 0x32FFFFFF#32 ≤ 101 ∧ fieldEf 0x80000000#32 ≤ 101 := by decide

theorem witness_CarryOut :
    positiveCarryOut 0x397FF001#32 ∧ positiveCarryOut 0x3FFFFFFF#32 ∧
      negativeCarryOut 0xB97FF001#32 ∧ negativeCarryOut 0xC07FFFFF#32 ∧
      ({ params with carry := .any } : Params).carry = .any := by decide

theorem witness_PowersOfTwo : 114 ≤ 114 ∧ 128 ≤ 129 ∧ 129 ≤ 129 := by decide

theorem witness_ParameterSettings :
    isNaN 0x3F800000#32 = false ∧ ¬ softTie 0x3F800000#32 ∧ ¬ grosslyWrong 0x3F800000#32 := by decide

theorem witness_EncodedValueIsNear :
    (rejects 0x3FFFF000#32 = false ∧ ¬ grosslyWrong 0x3FFFF000#32 ∧ fieldEf 0x3FFFF000#32 > 113) ∧
      (rejects 0x33000000#32 = false ∧ ¬ grosslyWrong 0x33000000#32 ∧ fieldEf 0x33000000#32 ≤ 113) := by
  decide

theorem witness_GrossErrors :
    (rejects 0x3FFFF001#32 = false ∧ grosslyWrong 0x3FFFF001#32) ∧
      (rejects 0x3FFFF000#32 = false ∧ ¬ grosslyWrong 0x3FFFF000#32) := by decide

theorem witness_Idempotent : enc 0x3DCCCCCD#32 = .ok 0xA4CD#16 := by decide

theorem witness_OnlyDecodedPatterns :
    rejects 0x3DCCD000#32 = false ∧ rejects 0x3DCCCCCD#32 = false ∧ rejects 0x80000000#32 = false := by
  decide

theorem witness_SoftSymmetry :
    (fieldEf 0x33000000#32 ≤ 113 ∧ fieldSf 0x33000000#32 = 0 ∧ ¬ softOverflow 0x33000000#32 ∧
      softTie 0x33000000#32 ∧ ({ params with suTie := .up } : Params).suTie = .up) ∧
      (fieldEf 0x33000001#32 ≤ 113 ∧ fieldSf 0x33000001#32 = 0 ∧ ¬ softOverflow 0x33000001#32 ∧
        ¬ softTie 0x33000001#32) ∧
      softOverflow 0x38FFF000#32 := by decide

theorem witness_NotMonotone : 114 ≤ 114 ∧ 127 ≤ 127 ∧ 128 ≤ 128 := by decide

theorem witness_StepRuns :
    (ready 0x1C0800000#33).pending = 0x1C0800000#33 :: [] ∧
      decodeTableWord 40 0x1C0800000 = some (.enc 0xC0800000#32) := by decide

theorem witness_StepKeeps :
    Consistent State.reset ∧ Consistent (ready 0x1C0800000#33) ∧
      ∃ t, step (ready 0x1C0800000#33) = .next t :=
  ⟨⟨rfl, rfl, rfl, rfl⟩, ⟨rfl, rfl, rfl, rfl⟩, ⟨_, step_of_pending rfl rfl⟩⟩

theorem witness_RunCollects :
    ({ State.reset with pending := [0x1C0800000#33, 0x00000F800#33, 0x140800000#33] } : State).pending =
      [0x1C0800000#33, 0x00000F800#33] ++ [0x140800000#33] := rfl

theorem witness_SameOperand : ∃ t, exec (.enc 0x40800000#32) State.reset = .next t := ⟨_, rfl⟩

theorem witness_Ports :
    ({ State.reset with encA := some 0x3F800000#32 } : State).encA = some 0x3F800000#32 ∧
      enc 0x3F800000#32 = .ok 0xE000#16 ∧ enc 0x40800000#32 = .outOfRange ∧
      ({ State.reset with decA := some 0xF800#16 } : State).decA = some 0xF800#16 := by decide

theorem witness_TheError : enc 0x7FC00000#32 = .outOfRange ∧ enc 0xC0800001#32 = .outOfRange := by decide

end Sys2Proof.Tests
end

section
/-! PROOF. Presenting the same operand again (20_memory.md R47). -/

namespace Sys2Proof.Machine

/-- An operation presented again at once drives its own port with the operand already held there, and
does not touch the other port (20_memory.md R47; 10_state.md R27). -/
theorem exec_again_keeps_ports {i : Instr} {s t u : State} (h : exec i s = .next t)
    (h' : exec i t = .next u) : u.encA = t.encA ∧ u.decA = t.decA := by
  cases i with
  | enc a =>
    rw [exec_enc] at h h'
    cases h; cases h'
    simp
  | dec x w =>
    rw [exec_dec] at h h'
    cases h; cases h'
    simp

/-- Settles O55: the one result of an operation is `resultOfInstr`, a function of the operation alone. -/
theorem sameOperandSameResult : Obligations.SameOperandSameResult := by
  intro i
  refine ⟨resultOfInstr i, fun s t hst => ?_⟩
  obtain ⟨hres, -, hpending, hdone⟩ := exec_inversion hst
  obtain ⟨u, htu⟩ := exec_total i t
  obtain ⟨hres', -, hpending', hdone'⟩ := exec_inversion htu
  obtain ⟨hencA, hdecA⟩ := exec_again_keeps_ports hst htu
  exact ⟨hres, u, htu, hres', hencA, hdecA, hpending'.trans hpending, hdone'.trans hdone⟩

end Sys2Proof.Machine
end

section
/-! PROOF. The 12-bit signed view of a word (30_encoding.md R69, R70). -/

namespace Sys2Proof.Machine

/-- The combined 12-bit field is the sign bit above the mantissa bits (30_encoding.md R61, R70). -/
theorem toNat_low12 (w : Hsnr) :
    (w.extractLsb' 0 12).toNat = 2048 * fieldS w + fieldM w := by
  have hlow : (w.extractLsb' 0 12).toNat = w.toNat % 4096 := by simp [BitVec.extractLsb'_toNat]
  have := fieldM_lt w
  have := fieldS_lt w
  rw [hlow, toNat_of_fields w]
  omega

/-- Bit 11 weighs 2048 in the unsigned field and 2048 - 4096 in two's complement (30_encoding.md R69,
R70). -/
theorem viewT_eq (w : Hsnr) : viewT w = (fieldM w : Int) - 2048 * (fieldS w : Int) := by
  have := fieldM_lt w
  have := fieldS_lt w
  have hfield : (2048 * fieldS w + fieldM w) % 2 ^ 12 = 2048 * fieldS w + fieldM w := by omega
  have hsign : (2048 * fieldS w + fieldM w) / 2 ^ (12 - 1) % 2 = fieldS w := by omega
  rw [viewT, sext, toNat_low12, hfield, hsign]
  push_cast
  ring

theorem viewT_bounds (w : Hsnr) : -2048 ≤ viewT w ∧ viewT w ≤ 2047 := by
  have := fieldM_lt w
  have := fieldS_lt w
  rw [viewT_eq]
  omega

/-- Settles O9: the view is `viewT_eq`, its range `viewT_bounds`. -/
theorem twelveBitViewIsMantissaMinusSign : Obligations.TwelveBitViewIsMantissaMinusSign :=
  fun w => ⟨viewT_eq w, viewT_bounds w⟩

end Sys2Proof.Machine
end

section
/-! PROOF. The value of a word as a whole number of steps: the range of all values and the growth along the
mantissa (40_format_values.md R90, R98, R102). -/

namespace Sys2Proof.Machine

/-- The signed integer that `hval` scales: `T(w)` in the soft-underflow regime, `V(w)` in the normalised one
(40_format_values.md R90). -/
def significand (w : Hsnr) : Int := if fieldE w = 0 then viewT w else viewV w

/-- The step between neighbouring words of an exponent field; `E = 0` has the step of `E = 1`
(40_format_values.md R102). -/
def wordStep (w : Hsnr) : ℚ := 2 ^ (max (fieldE w : ℤ) 1 - 25)

theorem hval_eq_significand_mul_wordStep (w : Hsnr) : hval w = significand w * wordStep w := by
  rw [hval, significand, wordStep]
  split
  next hE => simp [hE]
  next hE =>
    have hmax : max (fieldE w : ℤ) 1 = fieldE w := by omega
    rw [hmax]

theorem wordStep_pos (w : Hsnr) : 0 < wordStep w := by
  rw [wordStep]
  positivity

/-- The largest step is that of `E = 15`. -/
theorem wordStep_le (w : Hsnr) : wordStep w ≤ 1 / 1024 := by
  have := fieldE_lt w
  calc wordStep w ≤ (2 : ℚ) ^ (-10 : ℤ) := zpow_le_zpow_right₀ (by norm_num) (by omega)
    _ = 1 / 1024 := by norm_num

theorem viewV_of_fieldS_zero {w : Hsnr} (h : fieldS w = 0) : viewV w = 2048 + (fieldM w : Int) := if_pos h

theorem viewV_of_fieldS_one {w : Hsnr} (h : fieldS w = 1) : viewV w = (fieldM w : Int) - 4096 :=
  if_neg (by omega)

theorem significand_of_fieldS_zero {w : Hsnr} (h : fieldS w = 0) :
    significand w = (fieldM w : Int) + if fieldE w = 0 then 0 else 2048 := by
  rw [significand, viewT_eq, viewV_of_fieldS_zero h]
  split <;> omega

theorem significand_of_fieldS_one {w : Hsnr} (h : fieldS w = 1) :
    significand w = (fieldM w : Int) - if fieldE w = 0 then 2048 else 4096 := by
  rw [significand, viewT_eq, viewV_of_fieldS_one h]
  split <;> omega

theorem significand_nonneg {w : Hsnr} (h : fieldS w = 0) : 0 ≤ significand w := by
  rw [significand_of_fieldS_zero h]
  split <;> omega

theorem significand_neg {w : Hsnr} (h : fieldS w = 1) : significand w < 0 := by
  have := fieldM_lt w
  rw [significand_of_fieldS_one h]
  split <;> omega

theorem significand_bounds (w : Hsnr) : -4096 ≤ significand w ∧ significand w ≤ 4095 := by
  have := fieldM_lt w
  rcases fieldS_cases w with hS | hS
  · rw [significand_of_fieldS_zero hS]
    split <;> omega
  · rw [significand_of_fieldS_one hS]
    split <;> omega

/-- Within one sign and exponent field the significand moves with the mantissa field, unit by unit. -/
theorem significand_sub {w v : Hsnr} (hE : fieldE w = fieldE v) (hS : fieldS w = fieldS v) :
    significand v - significand w = (fieldM v : Int) - fieldM w := by
  rcases fieldS_cases w with h | h
  · rw [significand_of_fieldS_zero h, significand_of_fieldS_zero (hS ▸ h), hE]
    ring
  · rw [significand_of_fieldS_one h, significand_of_fieldS_one (hS ▸ h), hE]
    ring

theorem hval_nonneg {w : Hsnr} (h : fieldS w = 0) : 0 ≤ hval w := by
  rw [hval_eq_significand_mul_wordStep]
  exact mul_nonneg (Int.cast_nonneg (significand_nonneg h)) (wordStep_pos w).le

theorem hval_neg {w : Hsnr} (h : fieldS w = 1) : hval w < 0 := by
  rw [hval_eq_significand_mul_wordStep]
  exact mul_neg_of_neg_of_pos (Int.cast_lt_zero.mpr (significand_neg h)) (wordStep_pos w)

theorem HSNR_MAX_eq : HSNR_MAX = 4095 / 1024 := by norm_num [HSNR_MAX]

/-- The extreme significands at the largest step are the ends of the range (40_format_values.md R98). -/
theorem hval_mem_range (w : Hsnr) : HSNR_MIN ≤ hval w ∧ hval w ≤ HSNR_MAX := by
  obtain ⟨hlo, hhi⟩ := significand_bounds w
  have hlo' : (-4096 : ℚ) ≤ significand w := by exact_mod_cast hlo
  have hhi' : (significand w : ℚ) ≤ 4095 := by exact_mod_cast hhi
  have hpos := wordStep_pos w
  have hstep := wordStep_le w
  rw [hval_eq_significand_mul_wordStep, HSNR_MIN, HSNR_MAX_eq]
  constructor
  · calc (-4 : ℚ) ≤ -4096 * wordStep w := by linarith
      _ ≤ significand w * wordStep w := mul_le_mul_of_nonneg_right hlo' hpos.le
  · calc significand w * wordStep w ≤ 4095 * wordStep w := mul_le_mul_of_nonneg_right hhi' hpos.le
      _ ≤ 4095 / 1024 := by linarith

/-- Settles O13: the range is `hval_mem_range`; its ends are the significands -4096 and 4095 at the step of
`E = 15`. -/
theorem everyValueLiesInTheRange : Obligations.EveryValueLiesInTheRange := by
  refine ⟨hval_mem_range, rfl, HSNR_MAX_eq, ?_, ?_⟩
  · have hsig : significand 0xF800#16 = -4096 := by decide
    have hE : fieldE 0xF800#16 = 15 := by decide
    rw [hval_eq_significand_mul_wordStep, wordStep, hsig, hE, HSNR_MIN]
    norm_num
  · have hsig : significand 0xF7FF#16 = 4095 := by decide
    have hE : fieldE 0xF7FF#16 = 15 := by decide
    rw [hval_eq_significand_mul_wordStep, wordStep, hsig, hE, HSNR_MAX_eq]
    norm_num

/-- Within one sign and exponent field the values differ by one step per mantissa unit
(40_format_values.md R102). -/
theorem hval_sub {w v : Hsnr} (hE : fieldE w = fieldE v) (hS : fieldS w = fieldS v) :
    hval v - hval w = ((fieldM v : ℚ) - fieldM w) * wordStep w := by
  have hsig : (significand v : ℚ) - significand w = (fieldM v : ℚ) - fieldM w := by
    exact_mod_cast significand_sub hE hS
  have hstep : wordStep v = wordStep w := by rw [wordStep, wordStep, hE]
  rw [hval_eq_significand_mul_wordStep, hval_eq_significand_mul_wordStep, hstep, ← sub_mul, hsig]

theorem hval_lt_of_fieldM_lt {w v : Hsnr} (hE : fieldE w = fieldE v) (hS : fieldS w = fieldS v)
    (hM : fieldM w < fieldM v) : hval w < hval v := by
  rw [← sub_pos, hval_sub hE hS]
  exact mul_pos (sub_pos.mpr (Nat.cast_lt.mpr hM)) (wordStep_pos w)

/-- Settles O15: the difference is `hval_sub`, and the magnitude is the value for `S = 0` and its negation for
`S = 1`. -/
theorem valueGrowsByOneStepPerMantissaUnit : Obligations.ValueGrowsByOneStepPerMantissaUnit := by
  intro w v hE hS hM
  have hlt := hval_lt_of_fieldM_lt hE hS hM
  refine ⟨hval_sub hE hS, hlt, fun h => ?_, fun h => ?_⟩
  · rwa [abs_of_nonneg (hval_nonneg h), abs_of_nonneg (hval_nonneg (hS ▸ h))]
  · rw [abs_of_neg (hval_neg h), abs_of_neg (hval_neg (hS ▸ h))]
    exact neg_lt_neg hlt

end Sys2Proof.Machine
end

section
/-! PROOF. The magnitude of a binary32 number grows with `x[30:0]` (30_encoding.md R66), so a bound on the value
is a bound on the pattern. -/

namespace Sys2Proof.Machine

/-- The magnitude of a finite binary32 number in units of `2^-149`, as a function of its bits 30:0
(30_encoding.md R66). -/
def magnitudeUnits (n : Nat) : Nat :=
  if n / 8388608 = 0 then n else (8388608 + n % 8388608) * 2 ^ (n / 8388608 - 1)

/-- The magnitude of a finite binary32 number as a function of its bits 30:0. -/
def magnitudeValue (n : Nat) : ℚ := magnitudeUnits n * 2 ^ (-149 : ℤ)

/-- The next pattern is one unit of its binade away, also from the last pattern of a binade to the first of
the next. -/
theorem magnitudeUnits_lt_succ (n : Nat) : magnitudeUnits n < magnitudeUnits (n + 1) := by
  rw [magnitudeUnits, magnitudeUnits]
  by_cases hn : n / 8388608 = 0
  · by_cases hn' : (n + 1) / 8388608 = 0
    · simp only [hn, hn', if_true]
      omega
    · obtain rfl : n = 8388607 := by omega
      decide
  · have hn' : (n + 1) / 8388608 ≠ 0 := by omega
    simp only [hn, hn', if_false]
    by_cases hlast : n % 8388608 = 8388607
    · have hbinade : (n + 1) / 8388608 - 1 = n / 8388608 - 1 + 1 := by omega
      have hfirst : (n + 1) % 8388608 = 0 := by omega
      rw [hbinade, hfirst, hlast, pow_succ]
      have := Nat.two_pow_pos (n / 8388608 - 1)
      omega
    · have hbinade : (n + 1) / 8388608 = n / 8388608 := by omega
      have hnext : (n + 1) % 8388608 = n % 8388608 + 1 := by omega
      rw [hbinade, hnext]
      exact Nat.mul_lt_mul_of_pos_right (by omega) (Nat.two_pow_pos _)

theorem magnitudeValue_strictMono : StrictMono magnitudeValue := fun _ _ h =>
  mul_lt_mul_of_pos_right (Nat.cast_lt.mpr (strictMono_nat_of_lt_succ magnitudeUnits_lt_succ h))
    (by positivity)

theorem magnitudeValue_nonneg (n : Nat) : 0 ≤ magnitudeValue n := by
  rw [magnitudeValue]
  positivity

/-- A zero or subnormal pattern (30_encoding.md R66). -/
theorem magnitudeValue_of_fieldEf_zero {a : F32} (h : fieldEf a = 0) :
    magnitudeValue (magnitude a) = fieldMf a * 2 ^ (-149 : ℤ) := by
  have hmag : magnitude a = fieldMf a := by rw [magnitude_of_fields, h]; omega
  have hlow : fieldMf a / 8388608 = 0 := Nat.div_eq_of_lt (fieldMf_lt a)
  rw [magnitudeValue, magnitudeUnits, hmag, if_pos hlow]

/-- A normal pattern (30_encoding.md R66). -/
theorem magnitudeValue_of_fieldEf_pos {a : F32} (h : 1 ≤ fieldEf a) :
    magnitudeValue (magnitude a) =
      ((2 ^ 23 + fieldMf a : ℕ) : ℚ) * 2 ^ ((fieldEf a : ℤ) - 150) := by
  have hMf := fieldMf_lt a
  have hdiv : magnitude a / 8388608 = fieldEf a := by rw [magnitude_of_fields]; omega
  have hmod : magnitude a % 8388608 = fieldMf a := by rw [magnitude_of_fields]; omega
  have hexp : (fieldEf a : ℤ) - 150 = ((fieldEf a - 1 : ℕ) : ℤ) + -149 := by omega
  rw [magnitudeValue, magnitudeUnits, hdiv, hmod, if_neg (by omega), hexp, zpow_add₀ two_ne_zero,
    zpow_natCast]
  push_cast
  ring

/-- A finite number is its sign times its magnitude (30_encoding.md R66). -/
theorem finiteValue_eq (a : F32) :
    finiteValue a = signOf (fieldSf a) * magnitudeValue (magnitude a) := by
  rw [finiteValue]
  split
  next h => rw [magnitudeValue_of_fieldEf_zero h, mul_assoc]
  next h => rw [magnitudeValue_of_fieldEf_pos (by omega), mul_assoc]

theorem finiteValue_of_fieldSf_zero {a : F32} (h : fieldSf a = 0) :
    finiteValue a = magnitudeValue (magnitude a) := by
  rw [finiteValue_eq, h, signOf, if_pos rfl, one_mul]

theorem finiteValue_of_fieldSf_one {a : F32} (h : fieldSf a = 1) :
    finiteValue a = -magnitudeValue (magnitude a) := by
  rw [finiteValue_eq, h, signOf, if_neg one_ne_zero, neg_one_mul]

theorem abs_finiteValue (a : F32) : |finiteValue a| = magnitudeValue (magnitude a) := by
  have hnonneg := magnitudeValue_nonneg (magnitude a)
  rcases fieldSf_cases a with h | h
  · rw [finiteValue_of_fieldSf_zero h, abs_of_nonneg hnonneg]
  · rw [finiteValue_of_fieldSf_one h, abs_neg, abs_of_nonneg hnonneg]

/-! The patterns at which the encoder's comparisons change (41_encoder.md R112, R114, R133). -/

theorem magnitudeValue_four : magnitudeValue 0x40800000 = 4 := by
  norm_num [magnitudeValue, magnitudeUnits]

theorem magnitudeValue_max : magnitudeValue 0x407FF000 = 3.9990234375 := by
  norm_num [magnitudeValue, magnitudeUnits]

theorem magnitudeValue_regime : magnitudeValue 0x39000000 = 2 ^ (-13 : ℤ) := by
  norm_num [magnitudeValue, magnitudeUnits]

theorem magnitudeValue_half_soft_step : magnitudeValue 0x33000000 = 2 ^ (-25 : ℤ) := by
  norm_num [magnitudeValue, magnitudeUnits]

end Sys2Proof.Machine
end

section
/-! PROOF. The range check on the pattern is that on the value (41_encoder.md R112, R133). -/

namespace Sys2Proof.Machine

/-- The range check as a comparison of bits 30:0 (41_encoder.md R133). -/
theorem rejects_iff_magnitude (a : F32) :
    rejects a = true ↔ (fieldSf a = 0 ∧ 0x407FF000 < magnitude a) ∨
      (fieldSf a = 1 ∧ 0x40800000 < magnitude a) := by
  rw [rejects_iff, magnitude_of_fields]

/-- The range check on the pattern is that on the value (41_encoder.md R112, R133). -/
theorem rejects_iff_finiteValue (a : F32) :
    rejects a = true ↔ finiteValue a < -4 ∨ 3.9990234375 < finiteValue a := by
  have hnonneg := magnitudeValue_nonneg (magnitude a)
  rw [rejects_iff_magnitude, ← magnitudeValue_strictMono.lt_iff_lt, magnitudeValue_max,
    ← magnitudeValue_strictMono.lt_iff_lt, magnitudeValue_four]
  rcases fieldSf_cases a with h | h
  · have hlow : ¬ magnitudeValue (magnitude a) < -4 := by linarith
    simp [h, finiteValue_of_fieldSf_zero h, hlow]
  · have hhigh : ¬ 3.9990234375 < -magnitudeValue (magnitude a) := by
      norm_num
      linarith
    simp [h, finiteValue_of_fieldSf_one h, hhigh]

theorem enc_eq_outOfRange_iff (a : F32) : enc a = .outOfRange ↔ rejects a = true := by
  rw [enc_eq]
  cases rejects a <;> simp

theorem finiteValue_of_f32val {a : F32} {q : ℚ} (h : f32val a = .finite q) : finiteValue a = q := by
  rw [f32val] at h
  split_ifs at h
  exact F32Value.finite.inj h

theorem fieldEf_of_infinity {a : F32} (h : f32val a = .posInf ∨ f32val a = .negInf) :
    fieldEf a = 255 := by
  by_contra hne
  simp [f32val_of_ne hne] at h

theorem rejects_of_fieldEf_255 {a : F32} (h : fieldEf a = 255) : rejects a = true := by
  rw [rejects_iff, h]
  have := fieldSf_cases a
  omega

theorem enc_eq_outOfRange_iff_value {a : F32} {q : ℚ} (h : f32val a = .finite q) :
    enc a = .outOfRange ↔ q < -4 ∨ 3.9990234375 < q := by
  rw [enc_eq_outOfRange_iff, rejects_iff_finiteValue, finiteValue_of_f32val h]

/-- Settles O28: both comparisons are `rejects_iff_finiteValue`; an infinity has the largest exponent field;
the bounds and 4.0 are `magnitudeValue` at their patterns. -/
theorem rangeCheckRejectsByValue : Obligations.RangeCheckRejectsByValue := by
  refine ⟨fun a q h => enc_eq_outOfRange_iff_value h, fun a h => ?_, ?_, by decide, ?_, by decide, ?_,
    by decide, fun a q h hlow _ => (enc_eq_outOfRange_iff_value h).2 (.inr hlow)⟩
  · exact (enc_eq_outOfRange_iff a).2 (rejects_of_fieldEf_255 (fieldEf_of_infinity h))
  · have hmag : magnitude 0xC0800000#32 = 0x40800000 := by decide
    rw [f32val_of_ne (by decide), finiteValue_of_fieldSf_one (by decide), hmag, magnitudeValue_four]
  · have hmag : magnitude 0x407FF000#32 = 0x407FF000 := by decide
    rw [f32val_of_ne (by decide), finiteValue_of_fieldSf_zero (by decide), hmag, magnitudeValue_max]
  · have hmag : magnitude 0x40800000#32 = 0x40800000 := by decide
    rw [f32val_of_ne (by decide), finiteValue_of_fieldSf_zero (by decide), hmag, magnitudeValue_four]

end Sys2Proof.Machine
end

section
/-! PROOF. The choice of the encoder's regime (41_encoder.md R114). -/

namespace Sys2Proof.Machine

/-- The exponent field passes 113 where the magnitude reaches `2^-13` (41_encoder.md R114). -/
theorem fieldEf_gt_113_iff (a : F32) :
    fieldEf a > 113 ↔ (2 : ℚ) ^ (-13 : ℤ) ≤ |finiteValue a| := by
  have hMf := fieldMf_lt a
  rw [abs_finiteValue, ← magnitudeValue_regime, magnitudeValue_strictMono.le_iff_le, magnitude_of_fields]
  omega

/-- The one accepted operand of the largest exponent is -4.0 (41_encoder.md R112, R114). -/
theorem eq_minus_four_of_fieldEf_129 {a : F32} (hacc : rejects a = false) (h : fieldEf a = 129) :
    a = 0xC0800000#32 := by
  have hacc' : ¬ rejects a = true := by simp [hacc]
  rw [rejects_iff, h] at hacc'
  have hfields := toNat_of_f32_fields a
  have hSf := fieldSf_cases a
  apply BitVec.eq_of_toNat_eq
  rw [hfields, h]
  show _ = 0xC0800000
  omega

/-- Settles O30: the regime is `fieldEf_gt_113_iff`, the word `encWith_of_accepted`. -/
theorem regimeIsChosenAtTwoToTheMinusThirteen : Obligations.RegimeIsChosenAtTwoToTheMinusThirteen := by
  intro a hacc
  have hEf := fieldEf_of_accepted hacc
  refine ⟨fieldEf_gt_113_iff a, ?_, fun h => ⟨h, hEf⟩, eq_minus_four_of_fieldEf_129 hacc, fun p => ?_,
    fun p => encWith_of_accepted p hacc⟩
  · rw [fieldEf_gt_113_iff, not_le]
  · simp only [encWord, fieldEf_gt_113_iff]

end Sys2Proof.Machine
end

section
/-! PROOF. `round` on exact rationals and on shifted integers (41_encoder.md R122): every rule takes the nearest
integer where there is one, and the rules differ only in the choice on a tie. -/

namespace Sys2Proof.Machine

/-- The integer each rule takes for `k + 1/2` (41_encoder.md R122). -/
def tieChoice : SuTie → Int → Int
  | .away, k => if 0 ≤ k then k + 1 else k
  | .even, k => if k % 2 = 0 then k else k + 1
  | .up, k => k + 1

theorem floor_add_half_of_near {q : ℚ} {z : Int} (h : |q - z| < 1 / 2) : ⌊q + 1 / 2⌋ = z := by
  obtain ⟨hlo, hhi⟩ := abs_lt.1 h
  rw [Int.floor_eq_iff]
  constructor <;> linarith

theorem roundTie_of_near (tie : SuTie) {q : ℚ} {z : Int} (h : |q - z| < 1 / 2) : roundTie tie q = z := by
  obtain ⟨hlo, hhi⟩ := abs_lt.1 h
  cases tie with
  | away =>
    have hneg : |-q - ((-z : Int) : ℚ)| < 1 / 2 := by
      rw [Int.cast_neg, ← neg_sub', abs_neg]
      exact h
    rw [roundTie, floor_add_half_of_near h, floor_add_half_of_near hneg, neg_neg, ite_self]
  | up => exact floor_add_half_of_near h
  | even =>
    rcases le_or_gt (z : ℚ) q with hz | hz
    · have hfloor : ⌊q⌋ = z := by
        rw [Int.floor_eq_iff]
        constructor <;> linarith
      rw [roundTie, hfloor, if_pos (by linarith)]
    · have hfloor : ⌊q⌋ = z - 1 := by
        rw [Int.floor_eq_iff]
        push_cast
        constructor <;> linarith
      rw [roundTie, hfloor, if_neg (by push_cast; linarith), if_pos (by push_cast; linarith)]
      omega

theorem roundTie_half (tie : SuTie) (k : Int) : roundTie tie (k + 1 / 2) = tieChoice tie k := by
  have hup : ⌊(k : ℚ) + 1 / 2 + 1 / 2⌋ = k + 1 := by
    rw [Int.floor_eq_iff]
    push_cast
    constructor <;> linarith
  cases tie with
  | away =>
    have hdown : ⌊-((k : ℚ) + 1 / 2) + 1 / 2⌋ = -k := by
      rw [Int.floor_eq_iff]
      push_cast
      constructor <;> linarith
    have hsign : (0 : ℚ) ≤ k + 1 / 2 ↔ 0 ≤ k := by
      constructor
      · intro h
        have : (-1 : ℚ) < k := by linarith
        have : (-1 : Int) < k := by exact_mod_cast this
        omega
      · intro h
        have : (0 : ℚ) ≤ k := by exact_mod_cast h
        linarith
    simp only [roundTie, tieChoice, hup, hdown, hsign, neg_neg]
  | up => exact hup
  | even =>
    have hfloor : ⌊(k : ℚ) + 1 / 2⌋ = k := by
      rw [Int.floor_eq_iff]
      constructor <;> linarith
    have hfrac : (k : ℚ) + 1 / 2 - k = 1 / 2 := by ring
    rw [roundTie, hfloor, hfrac, if_neg (lt_irrefl _), if_neg (lt_irrefl _), tieChoice]

/-- Every rational has a nearest integer or lies halfway between two. -/
theorem near_or_half (q : ℚ) : (∃ z : Int, |q - z| < 1 / 2) ∨ ∃ k : Int, q = k + 1 / 2 := by
  have hlo := Int.floor_le q
  have hhi := Int.lt_floor_add_one q
  rcases lt_trichotomy (q - ⌊q⌋) (1 / 2) with h | h | h
  · exact .inl ⟨⌊q⌋, by rw [abs_lt]; constructor <;> linarith⟩
  · exact .inr ⟨⌊q⌋, by linarith⟩
  · exact .inl ⟨⌊q⌋ + 1, by rw [abs_lt]; push_cast; constructor <;> linarith⟩

theorem tieChoice_mem (tie : SuTie) (k : Int) : tieChoice tie k = k ∨ tieChoice tie k = k + 1 := by
  cases tie with
  | away => rw [tieChoice]; split <;> simp
  | even => rw [tieChoice]; split <;> simp
  | up => exact .inr rfl

theorem abs_sub_roundTie_le (tie : SuTie) (q : ℚ) : |q - roundTie tie q| ≤ 1 / 2 := by
  rcases near_or_half q with ⟨z, hz⟩ | ⟨k, rfl⟩
  · rw [roundTie_of_near tie hz]
    exact hz.le
  · rw [roundTie_half, abs_le]
    rcases tieChoice_mem tie k with h | h <;> rw [h] <;> push_cast <;> constructor <;> linarith

theorem abs_roundTie_le (tie : SuTie) {q : ℚ} {n : Int} (h : |q| < n) : |roundTie tie q| ≤ n := by
  have hround := abs_le.1 (abs_sub_roundTie_le tie q)
  have hq := abs_lt.1 h
  have hlo : ((-n - 1 : Int) : ℚ) < roundTie tie q := by push_cast; linarith
  have hhi : (roundTie tie q : ℚ) < (n + 1 : Int) := by push_cast; linarith
  rw [Int.cast_lt] at hlo hhi
  rw [abs_le]
  omega

/-- A quotient by a power of two is its whole part and the part shifted out. -/
theorem cast_div_two_pow (sig d : Nat) :
    (sig : ℚ) / 2 ^ d = (sig / 2 ^ d : ℕ) + (sig % 2 ^ d : ℕ) / 2 ^ d := by
  have hpow : (2 : ℚ) ^ d ≠ 0 := by positivity
  have hsig : (sig : ℚ) = 2 ^ d * (sig / 2 ^ d : ℕ) + (sig % 2 ^ d : ℕ) := by
    exact_mod_cast (Nat.div_add_mod sig (2 ^ d)).symm
  rw [← mul_right_inj' hpow, mul_add, mul_div_cancel₀ _ hpow, mul_div_cancel₀ _ hpow, ← hsig]

/-- Adding half a unit before the shift carries into the quotient when half a unit or more is shifted out. -/
theorem add_half_div_two_pow (sig d : Nat) :
    (sig + 2 ^ d) / 2 ^ (d + 1) =
      sig / 2 ^ (d + 1) + if 2 ^ d ≤ sig % 2 ^ (d + 1) then 1 else 0 := by
  have hpow := Nat.two_pow_pos d
  have hhalf : 2 ^ d < 2 ^ (d + 1) := Nat.pow_lt_pow_right (by omega) (by omega)
  have hcarry : 2 ^ (d + 1) ≤ sig % 2 ^ (d + 1) + 2 ^ d ↔ 2 ^ d ≤ sig % 2 ^ (d + 1) := by
    rw [pow_succ]
    omega
  rw [Nat.add_div (by omega), Nat.div_eq_of_lt hhalf, Nat.mod_eq_of_lt hhalf, add_zero]
  simp only [hcarry]

theorem near_add_half_div {sig d : Nat} (h : sig % 2 ^ (d + 1) ≠ 2 ^ d) :
    |(sig : ℚ) / 2 ^ (d + 1) - ((sig + 2 ^ d) / 2 ^ (d + 1) : ℕ)| < 1 / 2 := by
  have hpow : (0 : ℚ) < 2 ^ (d + 1) := by positivity
  have hdouble : (2 : ℚ) ^ (d + 1) = 2 * 2 ^ d := pow_succ' 2 d
  have hr : ((sig % 2 ^ (d + 1) : ℕ) : ℚ) < 2 ^ (d + 1) := by
    exact_mod_cast Nat.mod_lt sig (Nat.two_pow_pos (d + 1))
  have hnonneg : (0 : ℚ) ≤ (sig % 2 ^ (d + 1) : ℕ) / 2 ^ (d + 1) := by positivity
  have hlt_one : ((sig % 2 ^ (d + 1) : ℕ) : ℚ) / 2 ^ (d + 1) < 1 := (div_lt_one hpow).2 hr
  rw [cast_div_two_pow, add_half_div_two_pow, abs_lt]
  rcases lt_or_gt_of_ne h with hlt | hgt
  · have hlt' : ((sig % 2 ^ (d + 1) : ℕ) : ℚ) < 2 ^ d := by exact_mod_cast hlt
    have hfrac : ((sig % 2 ^ (d + 1) : ℕ) : ℚ) / 2 ^ (d + 1) < 1 / 2 := by
      rw [div_lt_iff₀ hpow]
      linarith
    rw [if_neg (by omega), add_zero]
    constructor <;> linarith
  · have hgt' : (2 : ℚ) ^ d < (sig % 2 ^ (d + 1) : ℕ) := by exact_mod_cast hgt
    have hfrac : 1 / 2 < ((sig % 2 ^ (d + 1) : ℕ) : ℚ) / 2 ^ (d + 1) := by
      rw [lt_div_iff₀ hpow]
      linarith
    rw [if_pos hgt.le, Nat.cast_add, Nat.cast_one]
    constructor <;> linarith

theorem cast_div_of_tie {sig d : Nat} (h : sig % 2 ^ (d + 1) = 2 ^ d) :
    (sig : ℚ) / 2 ^ (d + 1) = (sig / 2 ^ (d + 1) : ℕ) + 1 / 2 := by
  have hhalf : ((2 ^ d : ℕ) : ℚ) / 2 ^ (d + 1) = 1 / 2 := by
    rw [pow_succ]
    push_cast
    field_simp
  rw [cast_div_two_pow, h, hhalf]

/-- Off ties no setting changes the formula of 41_encoder.md R122. -/
theorem roundShift_of_ne_tie {sig d : Nat} (tie : SuTie) (sf : Nat) (h : sig % 2 ^ (d + 1) ≠ 2 ^ d) :
    roundShift tie sf sig (d + 1) = (sig + 2 ^ d) / 2 ^ (d + 1) := by
  cases tie <;> simp [roundShift, h, Nat.shiftRight_eq_div_pow]

theorem roundShift_of_tie {sig d : Nat} (tie : SuTie) (h : sig % 2 ^ (d + 1) = 2 ^ d) :
    (roundShift tie 0 sig (d + 1) : Int) = tieChoice tie (sig / 2 ^ (d + 1) : ℕ) := by
  have hup : (sig + 2 ^ d) / 2 ^ (d + 1) = sig / 2 ^ (d + 1) + 1 := by
    rw [add_half_div_two_pow, if_pos h.ge]
  cases tie <;> simp only [roundShift, tieChoice, Nat.add_sub_cancel, Nat.shiftRight_eq_div_pow, hup, h,
    zero_ne_one, false_and, if_true, if_false] <;> generalize sig / 2 ^ (d + 1) = k
  case away => rw [if_pos (by omega), Nat.cast_add, Nat.cast_one]
  case even => split <;> omega
  case up => rw [Nat.cast_add, Nat.cast_one]

/-- The negated tie `-(k + 1/2)` lies halfway above `-(k + 1)`. -/
theorem neg_roundShift_of_tie {sig d : Nat} (tie : SuTie) (h : sig % 2 ^ (d + 1) = 2 ^ d) :
    -(roundShift tie 1 sig (d + 1) : Int) = tieChoice tie (-(sig / 2 ^ (d + 1) : ℕ) - 1) := by
  have hup : (sig + 2 ^ d) / 2 ^ (d + 1) = sig / 2 ^ (d + 1) + 1 := by
    rw [add_half_div_two_pow, if_pos h.ge]
  cases tie <;> simp only [roundShift, tieChoice, Nat.add_sub_cancel, Nat.shiftRight_eq_div_pow, hup, h,
    and_self, if_true] <;> generalize sig / 2 ^ (d + 1) = k
  case away => rw [if_neg (by omega)]; omega
  case even => split <;> omega
  case up => omega

/-- `round` of a positive quotient (41_encoder.md R122). -/
theorem roundShift_eq_roundTie (tie : SuTie) (sig d : Nat) :
    (roundShift tie 0 sig (d + 1) : Int) = roundTie tie (sig / 2 ^ (d + 1)) := by
  by_cases h : sig % 2 ^ (d + 1) = 2 ^ d
  · rw [roundShift_of_tie tie h, ← roundTie_half, cast_div_of_tie h, Int.cast_natCast]
  · rw [roundShift_of_ne_tie tie 0 h]
    exact (roundTie_of_near tie (near_add_half_div h)).symm

/-- `round` of a negative quotient (41_encoder.md R122). -/
theorem neg_roundShift_eq_roundTie (tie : SuTie) (sig d : Nat) :
    -(roundShift tie 1 sig (d + 1) : Int) = roundTie tie (-(sig / 2 ^ (d + 1))) := by
  by_cases h : sig % 2 ^ (d + 1) = 2 ^ d
  · have hhalf : -((sig : ℚ) / 2 ^ (d + 1)) = ((-(sig / 2 ^ (d + 1) : ℕ) - 1 : Int) : ℚ) + 1 / 2 := by
      rw [cast_div_of_tie h]
      generalize sig / 2 ^ (d + 1) = k
      push_cast
      ring
    rw [neg_roundShift_of_tie tie h, hhalf, roundTie_half]
  · rw [roundShift_of_ne_tie tie 1 h]
    refine (roundTie_of_near tie ?_).symm
    rw [Int.cast_neg, ← neg_sub', abs_neg]
    exact near_add_half_div h

end Sys2Proof.Machine
end

section
/-! PROOF. `T` is the operand's value times `2^24`, rounded, and the soft-underflow word is `T` in 12 bits
(41_encoder.md R121, R123). -/

namespace Sys2Proof.Machine

theorem softT_of_fieldSf_zero {a : F32} (tie : SuTie) (h : fieldSf a = 0) :
    softT tie a = softMagnitude tie 0 (fieldEf a) (fieldMf a) := by
  rw [softT, h, if_neg (by omega)]

theorem softT_of_fieldSf_one {a : F32} (tie : SuTie) (h : fieldSf a = 1) :
    softT tie a = -(softMagnitude tie 1 (fieldEf a) (fieldMf a) : Int) := by
  rw [softT, h, if_pos rfl]

/-- The value in units of `2^-24`, the step of the soft-underflow regime (41_encoder.md R121). -/
theorem abs_finiteValue_scaled (a : F32) :
    |finiteValue a * 2 ^ 24| = magnitudeValue (magnitude a) * 2 ^ 24 := by
  rw [abs_mul, abs_finiteValue, abs_of_nonneg (by positivity : (0 : ℚ) ≤ 2 ^ 24)]

/-- `sig / 2^sh` (41_encoder.md R121). -/
theorem magnitudeValue_scaled_of_fieldEf_pos {a : F32} (hpos : 1 ≤ fieldEf a) (hEf : fieldEf a ≤ 113) :
    magnitudeValue (magnitude a) * 2 ^ 24 =
      ((2 ^ 23 + fieldMf a : ℕ) : ℚ) / (2 : ℚ) ^ (126 - fieldEf a) := by
  have hexp : (fieldEf a : ℤ) - 150 = -24 - ((126 - fieldEf a : ℕ) : ℤ) := by omega
  rw [magnitudeValue_of_fieldEf_pos hpos, hexp, zpow_sub₀ two_ne_zero, zpow_natCast]
  field_simp

theorem magnitudeValue_scaled_of_fieldEf_zero {a : F32} (h : fieldEf a = 0) :
    magnitudeValue (magnitude a) * 2 ^ 24 = (fieldMf a : ℚ) * (2 : ℚ) ^ (-125 : ℤ) := by
  rw [magnitudeValue_of_fieldEf_zero h, mul_assoc]
  norm_num

theorem abs_scaled_lt_half {a : F32} (h : fieldEf a ≤ 101) : |finiteValue a * 2 ^ 24| < 1 / 2 := by
  have hMf := fieldMf_lt a
  have hmag : magnitude a < 0x33000000 := by rw [magnitude_of_fields]; omega
  have hlt := magnitudeValue_strictMono hmag
  rw [magnitudeValue_half_soft_step] at hlt
  rw [abs_finiteValue_scaled]
  norm_num at hlt ⊢
  linarith

theorem abs_scaled_lt {a : F32} (h : fieldEf a ≤ 113) : |finiteValue a * 2 ^ 24| < 2048 := by
  have hlt : ¬ (2 : ℚ) ^ (-13 : ℤ) ≤ |finiteValue a| := by rw [← fieldEf_gt_113_iff]; omega
  rw [abs_finiteValue_scaled, ← abs_finiteValue]
  norm_num at hlt ⊢
  linarith

/-- `T` is the rounded value, under each tie rule (41_encoder.md R121, R122). -/
theorem softT_eq_roundTie (tie : SuTie) {a : F32} (hEf : fieldEf a ≤ 113) :
    softT tie a = roundTie tie (finiteValue a * 2 ^ 24) := by
  by_cases hzero : fieldEf a = 0
  · have hT : softT tie a = 0 := by simp [softT, softMagnitude, hzero]
    have hnear : |finiteValue a * 2 ^ 24 - (0 : Int)| < 1 / 2 := by
      simpa using abs_scaled_lt_half (a := a) (by omega)
    rw [hT, roundTie_of_near tie hnear]
  · have hshift : 126 - fieldEf a = 125 - fieldEf a + 1 := by omega
    have hvalue := magnitudeValue_scaled_of_fieldEf_pos (by omega) hEf
    rw [hshift] at hvalue
    rcases fieldSf_cases a with hSf | hSf
    · rw [softT_of_fieldSf_zero tie hSf, softMagnitude, if_neg hzero, hshift,
        roundShift_eq_roundTie, finiteValue_of_fieldSf_zero hSf, hvalue]
    · rw [softT_of_fieldSf_one tie hSf, softMagnitude, if_neg hzero, hshift,
        neg_roundShift_eq_roundTie, finiteValue_of_fieldSf_one hSf, neg_mul, hvalue]

theorem softT_of_fieldEf_le_101 (tie : SuTie) {a : F32} (h : fieldEf a ≤ 101) : softT tie a = 0 := by
  have hnear : |finiteValue a * 2 ^ 24 - (0 : Int)| < 1 / 2 := by simpa using abs_scaled_lt_half h
  rw [softT_eq_roundTie tie (by omega), roundTie_of_near tie hnear]

theorem abs_softT_le (tie : SuTie) {a : F32} (h : fieldEf a ≤ 113) : |softT tie a| ≤ 2048 := by
  rw [softT_eq_roundTie tie h]
  exact abs_roundTie_le tie (by exact_mod_cast abs_scaled_lt h)

/-- A soft-underflow operand is accepted and takes the soft-underflow path (41_encoder.md R112, R114). -/
theorem rejects_of_fieldEf_le_113 {a : F32} (h : fieldEf a ≤ 113) : rejects a = false := by
  have hMf := fieldMf_lt a
  rw [← Bool.not_eq_true, rejects_iff]
  omega

theorem encWith_of_fieldEf_le_113 (p : Params) {a : F32} (h : fieldEf a ≤ 113) :
    encWith p a = .ok (encSoft p a) := by
  rw [encWith_of_accepted p (rejects_of_fieldEf_le_113 h), encWord, if_neg (by omega)]

/-- The word of a soft-underflow operand as a number, where the setting gives it (41_encoder.md R123). -/
theorem toNat_encSoft {p : Params} {a : F32} (h : p.suOvf = .wrap ∨ softT p.suTie a ≠ 2048) :
    (encSoft p a).toNat = (trunc 12 (softT p.suTie a)).toNat := by
  have hgiven : ¬ (p.suOvf = .any ∧ softT p.suTie a = 2048) := by
    rintro ⟨hany, hT⟩
    simp [hany, hT] at h
  rw [encSoft, if_neg hgiven, BitVec.toNat_append]
  simp

theorem fieldE_encSoft {p : Params} {a : F32} (h : p.suOvf = .wrap ∨ softT p.suTie a ≠ 2048) :
    fieldE (encSoft p a) = 0 := by
  rw [fieldE_eq, toNat_encSoft h]
  exact Nat.div_eq_of_lt (trunc 12 (softT p.suTie a)).isLt

theorem low12_encSoft {p : Params} {a : F32} (h : p.suOvf = .wrap ∨ softT p.suTie a ≠ 2048) :
    (encSoft p a).extractLsb' 0 12 = trunc 12 (softT p.suTie a) := by
  apply BitVec.eq_of_toNat_eq
  rw [BitVec.extractLsb'_toNat, toNat_encSoft h, Nat.shiftRight_zero]
  exact Nat.mod_eq_of_lt (trunc 12 (softT p.suTie a)).isLt

/-- Two's complement in 12 bits loses nothing of a number in range (30_encoding.md R69). -/
theorem sext_trunc_12 {t : Int} (hlo : -2048 ≤ t) (hhi : t ≤ 2047) : sext 12 (trunc 12 t) = t := by
  have := toNat_trunc 12 t
  rw [sext]
  omega

theorem viewT_encSoft {p : Params} {a : F32} (hEf : fieldEf a ≤ 113) (hT : softT p.suTie a ≠ 2048) :
    viewT (encSoft p a) = softT p.suTie a := by
  have := abs_le.1 (abs_softT_le p.suTie hEf)
  rw [viewT, low12_encSoft (.inr hT)]
  exact sext_trunc_12 (by omega) (by omega)

/-- The sign bit is the sign of the 12-bit signed view (30_encoding.md R65, R70). -/
theorem fieldS_one_iff_viewT_neg (w : Hsnr) : fieldS w = 1 ↔ viewT w < 0 := by
  have := fieldM_lt w
  have := fieldS_lt w
  rw [viewT_eq]
  omega

/-- Settles O34: `T` is `softT_eq_roundTie`, the exact value before rounding `abs_finiteValue_scaled`. -/
theorem softUnderflowTIsTheRoundedValue : Obligations.SoftUnderflowTIsTheRoundedValue := by
  intro tie a hEf
  refine ⟨softT_eq_roundTie tie hEf, fun h => ⟨softT_of_fieldEf_le_101 tie h, abs_scaled_lt_half h⟩,
    abs_scaled_lt hEf, fun h => ?_, fun h => ?_, encSoft params a, encWith_of_fieldEf_le_113 params hEf,
    fieldE_encSoft (.inl rfl)⟩
  · rw [abs_finiteValue_scaled, magnitudeValue_scaled_of_fieldEf_pos h hEf]
  · rw [abs_finiteValue_scaled, magnitudeValue_scaled_of_fieldEf_zero h]

/-- Settles O35: the bits are `fieldE_encSoft` and `low12_encSoft`, the signed view `viewT_encSoft`. -/
theorem softUnderflowWordIsTInTwelveBits : Obligations.SoftUnderflowWordIsTInTwelveBits := by
  intro p a hEf hgiven
  rw [← softT_eq_roundTie p.suTie hEf]
  refine ⟨encSoft p a, encWith_of_fieldEf_le_113 p hEf, ?_, low12_encSoft hgiven,
    fun hT => ⟨viewT_encSoft hEf hT, ?_⟩⟩
  · exact BitVec.eq_of_toNat_eq (fieldE_encSoft hgiven)
  · rw [fieldS_one_iff_viewT_neg, viewT_encSoft hEf hT]

end Sys2Proof.Machine
end

section
/-! PROOF. The decoder's result is the binary32 pattern of the word's value (42_decoder.md R145, R146, R150). -/

namespace Sys2Proof.Machine

/-- The normalised binary32 pattern of `n * 2^(k - 127)`, the last case of 42_decoder.md R146 with its 103 made
a parameter. -/
def exactPattern (n : Int) (k : Nat) : F32 :=
  f32 (if n < 0 then 1 else 0) (k + highBit n.natAbs)
    ((n.natAbs - 2 ^ highBit n.natAbs) <<< (23 - highBit n.natAbs))

theorem highBit_eq {a p : Nat} (hlo : 2 ^ p ≤ a) (hhi : a < 2 ^ (p + 1)) : highBit a = p := by
  have hpos := Nat.two_pow_pos p
  exact (Nat.log2_eq_iff (by omega)).2 ⟨hlo, hhi⟩

theorem highBit_lt {a q : Nat} (ha : a ≠ 0) (h : a < 2 ^ q) : highBit a < q := (Nat.log2_lt ha).2 h

/-- With the leading 1 put back, the fraction of `exactPattern` is the number shifted up to 24 bits. -/
theorem leading_add_fraction {a : Nat} (ha : a ≠ 0) (h : a < 2 ^ 24) :
    2 ^ 23 + (a - 2 ^ highBit a) <<< (23 - highBit a) = a * 2 ^ (23 - highBit a) := by
  have hlead : 2 ^ highBit a ≤ a := Nat.log2_self_le ha
  have hp := highBit_lt ha h
  have hsplit : 2 ^ 23 = 2 ^ highBit a * 2 ^ (23 - highBit a) := by
    rw [← pow_add]
    congr 1
    omega
  rw [Nat.shiftLeft_eq, hsplit, ← add_mul]
  congr 1
  omega

theorem fraction_lt {a : Nat} (ha : a ≠ 0) (h : a < 2 ^ 24) :
    (a - 2 ^ highBit a) <<< (23 - highBit a) < 8388608 := by
  have hp := highBit_lt ha h
  have htop : a < 2 ^ (highBit a + 1) := Nat.lt_log2_self
  have hbelow : a * 2 ^ (23 - highBit a) < 2 ^ 24 :=
    calc a * 2 ^ (23 - highBit a) < 2 ^ (highBit a + 1) * 2 ^ (23 - highBit a) :=
          Nat.mul_lt_mul_of_pos_right htop (Nat.two_pow_pos _)
      _ = 2 ^ 24 := by rw [← pow_add]; congr 1; omega
  have := leading_add_fraction ha h
  omega

theorem signOf_mul_natAbs (n : Int) : signOf (if n < 0 then 1 else 0) * (n.natAbs : ℚ) = n := by
  rw [Nat.cast_natAbs]
  by_cases h : n < 0
  · simp [h, signOf, abs_of_neg h]
  · simp [h, signOf, abs_of_nonneg (not_lt.1 h)]

section
variable {n : Int} {k : Nat} (hn : n ≠ 0) (h24 : n.natAbs < 2 ^ 24) (hk : k + highBit n.natAbs < 255)
include hn h24 hk

theorem fieldEf_exactPattern : fieldEf (exactPattern n k) = k + highBit n.natAbs :=
  fieldEf_f32 (by split <;> omega) (by omega) (fraction_lt (Int.natAbs_ne_zero.2 hn) h24)

theorem f32val_exactPattern (hk1 : 1 ≤ k) :
    f32val (exactPattern n k) = .finite (n * 2 ^ ((k : ℤ) - 127)) := by
  have ha := Int.natAbs_ne_zero.2 hn
  have hp := highBit_lt ha h24
  have hs : (if n < 0 then 1 else 0) < 2 := by split <;> omega
  have he : k + highBit n.natAbs < 256 := by omega
  have hf := fraction_lt ha h24
  have hEf := fieldEf_exactPattern hn h24 hk
  have hexp : (2 : ℚ) ^ (23 - highBit n.natAbs) * 2 ^ (((k + highBit n.natAbs : Nat) : ℤ) - 150) =
      2 ^ ((k : ℤ) - 127) := by
    rw [← zpow_natCast, ← zpow_add₀ two_ne_zero]
    congr 1
    omega
  rw [f32val_of_ne (by omega), finiteValue, if_neg (by omega), hEf, exactPattern, fieldSf_f32 hs he hf,
    fieldMf_f32 hs he hf, leading_add_fraction ha h24, Nat.cast_mul, ← mul_assoc, signOf_mul_natAbs,
    Nat.cast_pow, Nat.cast_two, mul_assoc, hexp]

end

/-- The exponent offset of `exactPattern` that stands for `wordStep w`. -/
def stepOffset (w : Hsnr) : Nat := 102 + max (fieldE w) 1

theorem wordStep_eq_stepOffset (w : Hsnr) : wordStep w = 2 ^ ((stepOffset w : ℤ) - 127) := by
  rw [wordStep, stepOffset]
  congr 1
  omega

/-- A pattern written by the position `p` of its number's highest bit and the rest `r` below it. -/
theorem exactPattern_of_natAbs {n : Int} {k p r : Nat} (h : n.natAbs = 2 ^ p + r) (hr : r < 2 ^ p) :
    exactPattern n k = f32 (if n < 0 then 1 else 0) (k + p) (r <<< (23 - p)) := by
  have hp : highBit n.natAbs = p := by rw [h]; exact highBit_eq (by omega) (by omega)
  rw [exactPattern, hp, h, Nat.add_sub_cancel_left]

/-- The four branches of R146 for a nonzero word are one: the pattern of `significand w` steps. -/
theorem dec_eq_exactPattern {w : Hsnr} (h : significand w ≠ 0) :
    dec w = exactPattern (significand w) (stepOffset w) := by
  have hM := fieldM_lt w
  have hoff : stepOffset w = 102 + max (fieldE w) 1 := rfl
  rw [dec]
  split_ifs with hpos hpow hneg hzero
  · obtain ⟨hE, hS⟩ := hpos
    have hsig := significand_of_fieldS_zero hS
    rw [if_neg hE] at hsig
    have hexp : stepOffset w + 11 = fieldE w + 113 := by omega
    rw [exactPattern_of_natAbs (p := 11) (r := fieldM w) (by omega) (by omega), if_neg (by omega), hexp]
  · obtain ⟨hS, hM0⟩ := hpow
    have hsig := significand_of_fieldS_one hS
    by_cases hE : fieldE w = 0
    · rw [if_pos hE] at hsig
      have hexp : stepOffset w + 11 = fieldE w + 114 := by omega
      rw [exactPattern_of_natAbs (p := 11) (r := 0) (by omega) (by omega), if_pos (by omega), hexp,
        Nat.zero_shiftLeft]
    · rw [if_neg hE] at hsig
      have hexp : stepOffset w + 12 = fieldE w + 114 := by omega
      rw [exactPattern_of_natAbs (p := 12) (r := 0) (by omega) (by omega), if_pos (by omega), hexp,
        Nat.zero_shiftLeft]
  · have hS : fieldS w = 1 := by have := fieldS_cases w; omega
    have hsig := significand_of_fieldS_one hS
    rw [if_neg hneg] at hsig
    have hexp : stepOffset w + 11 = fieldE w + 113 := by omega
    rw [exactPattern_of_natAbs (p := 11) (r := 2048 - fieldM w) (by omega) (by omega), if_pos (by omega), hexp]
  · rw [significand, if_pos (not_not.1 hneg)] at h
    exact absurd hzero h
  · have hE := not_not.1 hneg
    rw [significand, stepOffset, if_pos hE, hE]
    rfl

theorem eq_zero_of_significand_eq_zero {w : Hsnr} (h : significand w = 0) : w = 0x0000#16 := by
  rcases fieldS_cases w with hS | hS
  · rw [significand_of_fieldS_zero hS] at h
    split at h
    next hE =>
      apply BitVec.eq_of_toNat_eq
      rw [toNat_of_fields, hE, hS, BitVec.toNat_ofNat]
      omega
    next => omega
  · exact absurd h (significand_neg hS).ne

theorem dec_zero : dec 0x0000#16 = 0x00000000#32 := by decide

theorem f32val_plusZero : f32val 0x00000000#32 = .finite 0 := by
  rw [f32val_of_ne (by decide), finiteValue, if_pos (by decide), show fieldMf 0x00000000#32 = 0 by decide,
    Nat.cast_zero, mul_zero, zero_mul]

/-- The hypotheses of the lemmas on `exactPattern` hold of every significand and its offset. -/
theorem exactPattern_fits {w : Hsnr} (h : significand w ≠ 0) :
    (significand w).natAbs < 2 ^ 24 ∧ stepOffset w + highBit (significand w).natAbs < 255 ∧
      1 ≤ stepOffset w := by
  have := significand_bounds w
  have := fieldE_lt w
  have hp : highBit (significand w).natAbs < 13 := highBit_lt (by omega) (by omega)
  rw [stepOffset]
  omega

/-- Exactness (42_decoder.md R145): the result's value is that of the word. -/
theorem f32val_dec (w : Hsnr) : f32val (dec w) = .finite (hval w) := by
  rw [hval_eq_significand_mul_wordStep]
  by_cases h : significand w = 0
  · rw [h, eq_zero_of_significand_eq_zero h, dec_zero, f32val_plusZero, Int.cast_zero, zero_mul]
  · obtain ⟨h24, hk, hk1⟩ := exactPattern_fits h
    rw [dec_eq_exactPattern h, f32val_exactPattern h h24 hk hk1, wordStep_eq_stepOffset]

theorem decValue_eq_hval (w : Hsnr) : decValue w = hval w := by
  rw [decValue, hval, ite_not]
  rfl

/-- Settles O23: the pattern's value is `f32val_dec`, and the pseudocode is `hval` read off the fields. -/
theorem decReturnsThePatternOfThePseudocodeValue : Obligations.DecReturnsThePatternOfThePseudocodeValue := by
  intro w
  rw [decValue_eq_hval, hval]
  refine ⟨f32val_dec w, fun hE hS => ?_, fun hE hS => ?_, fun hE => ?_, fun hw => hw ▸ dec_zero⟩
  · rw [if_neg hE, viewV_of_fieldS_zero hS]
    push_cast
    rfl
  · rw [if_neg hE, viewV_of_fieldS_one hS]
    push_cast
    rfl
  · rw [if_pos hE, viewT_eq]
    push_cast
    rfl

/-- A zero exponent field is that of plus zero alone: no result is subnormal or minus zero
(42_decoder.md R147, R148). -/
theorem eq_zero_of_fieldEf_dec {w : Hsnr} (hEf : fieldEf (dec w) = 0) : w = 0x0000#16 := by
  by_contra hne
  have h : significand w ≠ 0 := fun h => hne (eq_zero_of_significand_eq_zero h)
  obtain ⟨h24, hk, hk1⟩ := exactPattern_fits h
  rw [dec_eq_exactPattern h, fieldEf_exactPattern h h24 hk] at hEf
  omega

theorem rejects_dec (w : Hsnr) : rejects (dec w) = false := by
  obtain ⟨hlo, hhi⟩ := hval_mem_range w
  have hmax : HSNR_MAX = 3.9990234375 := by norm_num [HSNR_MAX]
  rw [← Bool.not_eq_true, rejects_iff_finiteValue, finiteValue_of_f32val (f32val_dec w), ← hmax, not_or,
    not_lt, not_lt]
  exact ⟨hlo, hhi⟩

/-- Settles O25: the value is `hval w`, in range by `hval_mem_range`; a zero exponent field is that of the zero
word alone, by `eq_zero_of_fieldEf_dec`; an accepted operand is given a word. -/
theorem decResultsAreAcceptedOperands : Obligations.DecResultsAreAcceptedOperands := by
  intro w
  obtain ⟨hlo, hhi⟩ := hval_mem_range w
  refine ⟨⟨hval w, f32val_dec w, hlo, HSNR_MAX_eq ▸ hhi⟩, fun hEf => ?_, ⟨fun hy => ?_, fun hw => ?_⟩,
    fun hy => ?_, rejects_dec w, encWord params (dec w), encWith_of_accepted params (rejects_dec w)⟩
  · rw [eq_zero_of_fieldEf_dec hEf, dec_zero]
  · exact eq_zero_of_fieldEf_dec (by rw [hy]; decide)
  · rw [hw, dec_zero]
  · have hw := eq_zero_of_fieldEf_dec (w := w) (by rw [hy]; decide)
    rw [hw, dec_zero] at hy
    exact absurd hy (by decide)

end Sys2Proof.Machine
end

section
/-! PROOF. The error of the encoder is a result and not a trap (60_exceptions.md R186, R187). -/

namespace Sys2Proof.Machine

/-- `enc_oor` is the out-of-range port of the result for the operand held (10_state.md R27). -/
theorem encOor_of_driven {s : State} {a : F32} (h : s.encA = some a) : s.encOor = oorOf (enc a) := by
  simp [State.encOor, h]

/-- An operation completes with the same result from any two states, the state after a rejection among
them (60_exceptions.md R187). -/
theorem exec_result_independent_of_state (i : Instr) (s t : State) :
    ∃ (u v : State) (r : Result), exec i t = .next u ∧ exec i s = .next v ∧
      u.results = t.results ++ [r] ∧ v.results = s.results ++ [r] := by
  obtain ⟨u, hu⟩ := exec_total i t
  obtain ⟨v, hv⟩ := exec_total i s
  exact ⟨u, v, resultOfInstr i, hu, hv, (exec_inversion hu).1, (exec_inversion hv).1⟩

/-- Settles O58: the next state is that of `exec_enc`, and the operation after it has its own result by
`exec_result_independent_of_state`. -/
theorem theErrorIsAResultAndNotATrap : Obligations.TheErrorIsAResultAndNotATrap := by
  intro a s hreject
  have hexec := exec_enc a s
  rw [hreject] at hexec
  refine ⟨_, hexec, ?_, rfl, rfl, rfl, rfl, fun i => exec_result_independent_of_state i s _⟩
  rwa [encOor_of_driven (a := a) rfl, oorOf_eq_true_iff]

end Sys2Proof.Machine
end

section
/-! PROOF. One step moves the host along its program by one descriptor (00_scope.md R9; 20_memory.md R52). -/

namespace Sys2Proof.Machine

/-- An operation drives its own unit's port and leaves the other as it was (10_state.md R27). -/
theorem exec_decode_ports {d : Descriptor} {s t : State} (h : exec (decode d) s = .next t) :
    t.encA = (encOperand d).or s.encA ∧ t.decA = (decOperand d).or s.decA := by
  rw [encOperand, decOperand]
  cases hd : decode d with
  | enc a =>
    rw [hd, exec_enc] at h
    cases h
    simp
  | dec x w =>
    rw [hd, exec_dec] at h
    cases h
    simp

/-- All that a step going on has done, field by field. -/
theorem step_next_fields {s u : State} (h : step s = .next u) :
    ∃ d rest, s.pending = d :: rest ∧ u.pending = rest ∧ u.done = s.done ++ [d] ∧
      u.results = s.results ++ [resultOf d] ∧ u.draws = s.draws + 1 ∧
      u.encA = (encOperand d).or s.encA ∧ u.decA = (decOperand d).or s.decA := by
  obtain ⟨d, rest, t, hpending, hexec, rfl⟩ := step_inversion h
  obtain ⟨hresults, hdraws, hpending', hdone⟩ := exec_inversion hexec
  obtain ⟨hencA, hdecA⟩ := exec_decode_ports hexec
  rw [hpending] at hpending'
  exact ⟨d, rest, hpending, by simp [hpending'], by simp [hpending', hdone], hresults, hdraws, hencA, hdecA⟩

/-- With a descriptor left a step goes on, from every state. -/
theorem step_goes_on {s : State} {d : Descriptor} {rest : List Descriptor} (h : s.pending = d :: rest) :
    ∃ t, exec (decode d) s = .next t ∧ step s = .next t.advance := by
  obtain ⟨t, ht⟩ := exec_total (decode d) s
  exact ⟨t, ht, step_of_pending h ht⟩

theorem step_eq_runOver {s : State} (h : s.pending = []) : step s = .fault .runOver := by
  rw [step, (fetch_none_iff s).2 h]

/-- The last operand of a list with one more descriptor is that descriptor's, if it has one. -/
theorem getLast?_filterMap_concat {α : Type} (f : Descriptor → Option α) (ds : List Descriptor)
    (d : Descriptor) :
    ((ds ++ [d]).filterMap f).getLast? = (f d).or (ds.filterMap f).getLast? := by
  cases h : f d <;> simp [h]

/-- Settles O52: the invariant's four clauses are those of `step_next_fields` with one descriptor more done. -/
theorem stepKeepsResultsTrueToTheProgram : Obligations.StepKeepsResultsTrueToTheProgram := by
  rintro s t ⟨hresults, hencA, hdecA, hdraws⟩ hstep
  obtain ⟨d, rest, hpending, hpending', hdone, hresults', hdraws', hencA', hdecA'⟩ := step_next_fields hstep
  refine ⟨⟨?_, ?_, ?_, ?_⟩, ?_, ?_⟩
  · simp [hresults', hdone, hresults]
  · rw [hencA', hdone, getLast?_filterMap_concat, hencA]
  · rw [hdecA', hdone, getLast?_filterMap_concat, hdecA]
  · simp [hdraws', hdone, hdraws]
  · simp [State.program, hpending, hpending', hdone]
  · simp [State.position, hdone]

/-- Settles O51: with nothing pending the step is `step_eq_runOver`, otherwise `step_goes_on`. -/
theorem onlyTheEndOfTheRunStops : Obligations.OnlyTheEndOfTheRunStops := by
  intro s
  cases hpending : s.pending with
  | nil =>
    have hstop := step_eq_runOver hpending
    exact ⟨.inr ⟨hstop, hpending⟩, by simp [hstop]⟩
  | cons d rest =>
    obtain ⟨t, -, hstep⟩ := step_goes_on hpending
    exact ⟨.inl ⟨_, hstep⟩, by simp [hstep]⟩

/-- Settles O53: every field of the reset state is empty. -/
theorem resetHasNoResultAndIsConsistent : Obligations.ResetHasNoResultAndIsConsistent :=
  ⟨⟨rfl, rfl, rfl, rfl⟩, rfl, rfl, rfl, step_eq_runOver rfl⟩

end Sys2Proof.Machine
end

section
/-! PROOF. Operation descriptors: decoding and encoding are inverse, and the opcode map agrees with the decoder
(30_encoding.md R76, R77, R80). -/

namespace Sys2Proof.Machine

open Sys2Proof.Laws.RowCovers (and_opMask encode_enc_bit encode_dec_bit)

theorem decode_of_bit {d : Descriptor} (h : d.getLsbD 32 = true) :
    decode d = .enc (d.extractLsb' 0 32) := by
  rw [decode, if_pos h]

theorem decode_of_not_bit {d : Descriptor} (h : d.getLsbD 32 = false) :
    decode d = .dec (d.extractLsb' 16 16) (d.extractLsb' 0 16) := by
  rw [decode, h]
  rfl

theorem decode_encode (i : Instr) : decode (encode i) = i := by
  cases i with
  | enc a =>
    rw [decode_of_bit (encode_enc_bit a), encode, BitVec.extractLsb'_append_eq_of_add_le (by omega),
      BitVec.extractLsb'_eq_self]
  | dec x w =>
    have hx : (encode (.dec x w)).extractLsb' 16 16 = x := by
      rw [encode, BitVec.extractLsb'_append_eq_of_add_le (by decide)]
      exact BitVec.extractLsb'_append_eq_left
    have hw : (encode (.dec x w)).extractLsb' 0 16 = w := by
      rw [encode, BitVec.extractLsb'_append_eq_of_add_le (by decide)]
      exact BitVec.extractLsb'_append_eq_right
    rw [decode_of_not_bit (encode_dec_bit x w), hx, hw]

theorem decodeNat_of_lt {n : Nat} (h : n < 2 ^ 33) : decodeNat n = .ok (decode (BitVec.ofNat 33 n)) := by
  rw [decodeNat, toDescriptor, if_pos h]
  rfl

/-- A number of more than 33 bits is no descriptor (30_encoding.md R81). -/
theorem decodeNat_error_iff (n : Nat) : decodeNat n = .error .notThirtyThreeBits ↔ 2 ^ 33 ≤ n := by
  by_cases h : n < 2 ^ 33
  · simp only [decodeNat_of_lt h, not_le.2 h, reduceCtorEq]
  · simp only [decodeNat, toDescriptor, if_neg h, not_lt.1 h, iff_true]
    rfl

theorem decodeTableWord_toNat {n : Nat} (h : 33 ≤ n) (d : Descriptor) :
    decodeTableWord n d.toNat = some (decode d) := by
  have hfits : d.toNat < 2 ^ n := lt_of_lt_of_le d.isLt (Nat.pow_le_pow_right (by omega) h)
  rw [decodeTableWord, tableWord, Nat.mod_eq_of_lt hfits, decodeNat_of_lt d.isLt, BitVec.ofNat_toNat,
    BitVec.setWidth_eq]

/-- An operation read from a table word is that of the word's descriptor. -/
theorem decode_of_decodeTableWord {n w : Nat} {i : Instr} (h : decodeTableWord n w = some i) :
    decode (BitVec.ofNat 33 (tableWord n w)) = i := by
  by_cases hlt : tableWord n w < 2 ^ 33
  · rw [decodeTableWord, decodeNat_of_lt hlt] at h
    exact Option.some.inj h
  · rw [decodeTableWord, (decodeNat_error_iff _).2 (not_lt.1 hlt)] at h
    cases h

/-- Settles O1: the operation is `decode_encode`, through the table word by `decodeTableWord_toNat`. -/
theorem decodeOfEncodeIsTheOperation : Obligations.DecodeOfEncodeIsTheOperation :=
  ⟨fun i _ => ⟨decode_encode i, fun _ hn => by rw [decodeTableWord_toNat hn, decode_encode]⟩,
    decodeNat_error_iff⟩

theorem opBit_append_operand (d : Descriptor) : BitVec.ofBool (d.getLsbD 32) ++ d.extractLsb' 0 32 = d := by
  have hop : BitVec.ofBool (d.getLsbD 32) = d.extractLsb' 32 1 := by
    ext j hj
    simp [show j = 0 by omega]
  rw [hop, BitVec.extractLsb'_append_extractLsb'_eq_extractLsb' (by omega), BitVec.extractLsb'_eq_self]

/-- No bit is lost by decoding, the ignored ones included (30_encoding.md R76). -/
theorem encode_decode (d : Descriptor) : encode (decode d) = d := by
  have hsplit := opBit_append_operand d
  cases h : d.getLsbD 32 with
  | true =>
    rw [h] at hsplit
    rw [decode_of_bit h]
    exact hsplit
  | false =>
    rw [h] at hsplit
    rw [decode_of_not_bit h, encode, BitVec.extractLsb'_append_extractLsb'_eq_extractLsb' (by omega)]
    exact hsplit

/-- The mask of the canonical form keeps the operation bit of a `HSNR.DEC` and its word. -/
theorem encode_dec_and_mask (x : BitVec 16) (w : Hsnr) :
    encode (.dec x w) &&& 0x00000FFFF#33 = encode (.dec 0 w) := by
  have hmask : 0x00000FFFF#33 = 0#1 ++ (0#16 ++ BitVec.allOnes 16) := by decide
  rw [hmask, encode, encode, BitVec.and_append, BitVec.and_append, BitVec.and_allOnes, BitVec.and_zero,
    BitVec.and_zero]
  rfl

/-- Settles O2: the descriptor is `encode_decode`; the canonical form differs by the mask of
`encode_dec_and_mask`. -/
theorem encodeOfDecodeIsTheDescriptor : Obligations.EncodeOfDecodeIsTheDescriptor := by
  refine ⟨encode_decode, fun d => ?_⟩
  have hd := encode_decode d
  cases h : d.getLsbD 32 with
  | true =>
    rw [decode_of_bit h] at hd
    rw [decode_of_bit h, if_pos rfl]
    exact hd
  | false =>
    have hmask := encode_dec_and_mask (d.extractLsb' 16 16) (d.extractLsb' 0 16)
    rw [decode_of_not_bit h] at hd
    rw [hd] at hmask
    rw [decode_of_not_bit h, if_neg Bool.false_ne_true]
    exact hmask.symm

/-- A row covers the descriptors of its own operations (30_encoding.md R77). -/
theorem row_covers_encode_iff (i : Instr) : Sys2Proof.Laws.RowCovers.Statement i := by
  cases i with
  | enc a => exact Sys2Proof.Laws.RowCovers.enc a
  | dec x w => exact Sys2Proof.Laws.RowCovers.dec x w

/-- Settles O3: the mask picks the bit the decoder tests, and the rows are those of `row_covers_encode_iff`. -/
theorem opcodeMapIsTotalAndUnambiguous : Obligations.OpcodeMapIsTotalAndUnambiguous := by
  intro d
  have hrow := row_covers_encode_iff (decode d)
  rw [Sys2Proof.Laws.RowCovers.Statement, encode_decode] at hrow
  rw [and_opMask]
  cases h : d.getLsbD 32 with
  | true =>
    refine ⟨?_, ?_, hrow⟩ <;> simp [decode_of_bit h]
  | false =>
    refine ⟨?_, ?_, hrow⟩ <;> simp [decode_of_not_bit h]

/-- Settles O4: a `HSNR.DEC` reads its word alone, by `exec_dec`; a step goes on by `step_goes_on`. -/
theorem ignoredDescriptorBitsDoNotMatter : Obligations.IgnoredDescriptorBitsDoNotMatter := by
  refine ⟨fun d e rest s hd he hword => ?_, fun d rest s => ?_⟩
  · have hexec (f : Descriptor) (hf : f.getLsbD 32 = false) := step_of_pending
      (s := { s with pending := f :: rest }) rfl (decode_of_not_bit hf ▸ exec_dec _ _ _)
    refine ⟨_, _, hexec d hd, hexec e he, ?_⟩
    rw [hword]
    rfl
  · obtain ⟨t, -, ht⟩ := step_goes_on (s := { s with pending := d :: rest }) rfl
    exact ⟨_, ht⟩

/-- Settles O50: the step is `step_goes_on`; the descriptor placed decodes to the table word's operation. -/
theorem stepRunsTheDecodedOperation : Obligations.StepRunsTheDecodedOperation := by
  refine ⟨fun s d rest hpending => ?_, fun s n w i hi => ?_⟩
  · obtain ⟨t, hexec, hstep⟩ := step_goes_on hpending
    obtain ⟨-, -, hpending', hdone⟩ := exec_inversion hexec
    refine ⟨t, hexec, ?_⟩
    rw [hstep, State.advance, hpending', hdone, hpending]
    rfl
  · obtain ⟨t, hexec, hstep⟩ := step_goes_on (s := s.withFetchWord n w) rfl
    rw [decode_of_decodeTableWord hi] at hexec
    exact ⟨t, hexec, hstep⟩

/-- Settles O6: the four descriptors are concrete bit strings. -/
theorem descriptorsOfTheManualDecode : Obligations.DescriptorsOfTheManualDecode := by
  refine ⟨?_, ?_, ?_, ?_⟩ <;> decide

end Sys2Proof.Machine
end

section
/-! PROOF. Written operations and descriptors read back (30_encoding.md R76, R82). -/

namespace Sys2Proof.Machine

/-- A line whose last character is no space keeps it, with or without one space added. -/
theorem dropTrailingSpaces_concat {xs : List Char} {c : Char} (hc : c ≠ ' ') :
    ((xs ++ [c]).reverse.dropWhile (· == ' ')).reverse = xs ++ [c] ∧
      ((xs ++ [c] ++ [' ']).reverse.dropWhile (· == ' ')).reverse = xs ++ [c] := by
  simp [hc]

/-- A written operation has no dash and ends in a digit. -/
theorem render_eq_concat (i : Instr) :
    ∃ xs c, render i = xs ++ [c] ∧ (∀ d ∈ render i, d ≠ '-') ∧ c ≠ ' ' := by
  have hlast (n : Nat) : hexDigit (n % 16) ≠ ' ' := (hexDigit_ne _ (Nat.mod_lt n (by omega))).2
  have hdigits (k n : Nat) (d : Char) (hd : d ∈ hexDigits k n) : d ≠ '-' := (mem_hexDigits_ne hd).1
  cases i with
  | enc a =>
    refine ⟨'E' :: 'N' :: 'C' :: ' ' :: '0' :: 'x' :: hexDigits 7 (a.toNat / 16), _, rfl, ?_, hlast a.toNat⟩
    simpa [render] using hdigits 8 a.toNat
  | dec x w =>
    refine ⟨'D' :: 'E' :: 'C' :: ' ' :: '0' :: 'x' :: hexDigits 3 (w.toNat / 16), _, rfl, ?_, hlast w.toNat⟩
    simpa [render] using hdigits 4 w.toNat

theorem stripLine_render (i : Instr) : stripLine (render i) = render i := by
  obtain ⟨xs, c, hconcat, hdash, hc⟩ := render_eq_concat i
  have hdrop := dropComment_append (render i) [] hdash
  rw [List.append_nil] at hdrop
  rw [stripLine, hdrop, dropComment, List.append_nil, hconcat]
  exact (dropTrailingSpaces_concat hc).1

theorem stripLine_render_comment (i : Instr) (comment : List Char) :
    stripLine (render i ++ ' ' :: '-' :: '-' :: comment) = render i := by
  obtain ⟨xs, c, hconcat, hdash, hc⟩ := render_eq_concat i
  have hcomment : dropComment (' ' :: '-' :: '-' :: comment) = [' '] := by simp [dropComment]
  rw [stripLine, dropComment_append _ _ hdash, hcomment, hconcat]
  exact (dropTrailingSpaces_concat hc).2

/-- `k` digits hold a bit string of `4 * k` bits or fewer. -/
theorem hexNumber_hexDigits_toNat {k n : Nat} (h : n ≤ 4 * k) (x : BitVec n) :
    hexNumber k (hexDigits k x.toNat) = some x.toNat := by
  have hfits : x.toNat < 16 ^ k := by
    calc x.toNat < 2 ^ n := x.isLt
      _ ≤ 2 ^ (4 * k) := Nat.pow_le_pow_right (by omega) h
      _ = 16 ^ k := Nat.pow_mul 2 4 k
  rw [hexNumber_hexDigits, Nat.mod_eq_of_lt hfits]

theorem parseBare_render (i : Instr) : parseBare (render i) = some i.canonicalise := by
  cases i with
  | enc a => simp [render, parseBare, hexNumber_hexDigits_toNat, Instr.canonicalise]
  | dec x w => simp [render, parseBare, hexNumber_hexDigits_toNat, Instr.canonicalise]

theorem parseDescriptor_renderDescriptor (d : Descriptor) :
    parseDescriptor (renderDescriptor d) = some d := by
  have hd : toDescriptor d.toNat = .ok d := by
    rw [toDescriptor, if_pos d.isLt, BitVec.ofNat_toNat, BitVec.setWidth_eq]
  simp [renderDescriptor, parseDescriptor, hexNumber_hexDigits_toNat, hd, Except.toOption]

/-- Settles O5: stripping leaves the written operation, and `parseBare_render` reads it back. -/
theorem writtenOperationsReadBack : Obligations.WrittenOperationsReadBack :=
  ⟨fun i => by rw [parse, stripLine_render, parseBare_render],
    fun i c => by rw [parse, stripLine_render_comment, parseBare_render],
    parseDescriptor_renderDescriptor⟩

end Sys2Proof.Machine
end

section
/-! PROOF. Packing for every integer, and a word or a pattern as its fields (30_encoding.md R60 to R71). -/

namespace Sys2Proof.Machine

theorem trunc_congr {n : Nat} {i j : Int} (h : i % 2 ^ n = j % 2 ^ n) : trunc n i = trunc n j := by
  apply BitVec.eq_of_toNat_eq
  have hcast : ((trunc n i).toNat : Int) = (trunc n j).toNat := by rw [toNat_trunc, toNat_trunc, h]
  exact_mod_cast hcast

/-- Packing reads each field modulo its width (30_encoding.md R62, D7). -/
theorem pack_congr {e e' s s' m m' : Int} (he : e % 16 = e' % 16) (hs : s % 2 = s' % 2)
    (hm : m % 2048 = m' % 2048) : pack e s m = pack e' s' m' := by
  rw [pack, pack, trunc_congr (n := 4) he, trunc_congr (n := 1) hs, trunc_congr (n := 11) hm]

theorem toNat_pack_emod (e s m : Int) :
    ((pack e s m).toNat : Int) = 4096 * (e % 16) + 2048 * (s % 2) + m % 2048 := by
  have hreduced : pack e s m = pack (e % 16).toNat (s % 2).toNat (m % 2048).toNat :=
    pack_congr (by omega) (by omega) (by omega)
  rw [hreduced, toNat_pack (by omega) (by omega) (by omega)]
  omega

theorem fieldE_pack (e s m : Int) : (fieldE (pack e s m) : Int) = e % 16 := by
  have := toNat_pack_emod e s m
  rw [fieldE_eq]
  omega

theorem fieldS_pack (e s m : Int) : (fieldS (pack e s m) : Int) = s % 2 := by
  have := toNat_pack_emod e s m
  rw [fieldS_eq]
  omega

theorem fieldM_pack (e s m : Int) : (fieldM (pack e s m) : Int) = m % 2048 := by
  have := toNat_pack_emod e s m
  rw [fieldM_eq]
  omega

/-- A word is determined by its fields. -/
theorem eq_of_fields {w v : Hsnr} (hE : fieldE w = fieldE v) (hS : fieldS w = fieldS v)
    (hM : fieldM w = fieldM v) : w = v := by
  apply BitVec.eq_of_toNat_eq
  rw [toNat_of_fields w, toNat_of_fields v, hE, hS, hM]

/-- A pattern is determined by its sign and its bits 30:0. -/
theorem eq_of_sign_of_magnitude {x y : F32} (hSf : fieldSf x = fieldSf y)
    (hmag : magnitude x = magnitude y) : x = y := by
  apply BitVec.eq_of_toNat_eq
  rw [fieldSf_eq, fieldSf_eq] at hSf
  rw [magnitude_eq, magnitude_eq] at hmag
  omega

/-- Settles O7: as a number `toNat_pack_emod`, as a word the bits set side by side. -/
theorem packTruncatesEachField : Obligations.PackTruncatesEachField := by
  intro e s m
  refine ⟨toNat_pack_emod e s m, ?_⟩
  calc pack e s m = (trunc 4 e ++ (trunc 1 s ++ trunc 11 m)).setWidth 16 := (BitVec.setWidth_eq _).symm
    _ = _ := by
      rw [BitVec.setWidth_append_eq_shiftLeft_setWidth_or, BitVec.setWidth_append_eq_shiftLeft_setWidth_or,
        BitVec.or_assoc]

/-- A packed word has the fields packed, where they fit. -/
theorem fields_pack_of_lt {e s m : Nat} (he : e < 16) (hs : s < 2) (hm : m < 2048) :
    fieldE (pack e s m) = e ∧ fieldS (pack e s m) = s ∧ fieldM (pack e s m) = m := by
  have := fieldE_pack e s m
  have := fieldS_pack e s m
  have := fieldM_pack e s m
  omega

theorem pack_fields (w : Hsnr) : pack (fieldE w) (fieldS w) (fieldM w) = w := by
  obtain ⟨hE, hS, hM⟩ := fields_pack_of_lt (fieldE_lt w) (fieldS_lt w) (fieldM_lt w)
  exact eq_of_fields hE hS hM

/-- Settles O8. -/
theorem packAndExtractorsAreInverse : Obligations.PackAndExtractorsAreInverse :=
  ⟨pack_fields, fun _ _ _ he hs hm => fields_pack_of_lt (by omega) (by omega) (by omega)⟩

theorem viewV_bounds_of_fieldS_zero {w : Hsnr} (h : fieldS w = 0) : 2048 ≤ viewV w ∧ viewV w ≤ 4095 := by
  have := fieldM_lt w
  rw [viewV_of_fieldS_zero h]
  omega

theorem viewV_bounds_of_fieldS_one {w : Hsnr} (h : fieldS w = 1) : -4096 ≤ viewV w ∧ viewV w ≤ -2049 := by
  have := fieldM_lt w
  rw [viewV_of_fieldS_one h]
  omega

/-- The 13 bits `S`, not `S`, `M` as a number (30_encoding.md R71). -/
theorem toNat_thirteenBits (w : Hsnr) :
    (w.extractLsb' 11 1 ++ (~~~(w.extractLsb' 11 1) ++ w.extractLsb' 0 11)).toNat =
      4096 * fieldS w + 2048 * (1 - fieldS w) + fieldM w := by
  have hM : (w.extractLsb' 0 11).toNat < 2 ^ 11 := BitVec.isLt _
  have hlow : (~~~(w.extractLsb' 11 1) ++ w.extractLsb' 0 11).toNat < 2 ^ 12 := BitVec.isLt _
  rw [BitVec.toNat_append, ← Nat.shiftLeft_add_eq_or_of_lt hlow, BitVec.toNat_append,
    ← Nat.shiftLeft_add_eq_or_of_lt hM, BitVec.toNat_not, Nat.shiftLeft_eq, Nat.shiftLeft_eq]
  show fieldS w * 2 ^ 12 + ((2 ^ 1 - 1 - fieldS w) * 2 ^ 11 + fieldM w) = _
  omega

/-- The top bit weighs -4096 and the complemented sign bit 2048 (30_encoding.md R69, R71). -/
theorem viewV13_eq_viewV (w : Hsnr) : viewV13 w = viewV w := by
  have hbits := toNat_thirteenBits w
  have := fieldM_lt w
  rw [viewV13, sext, hbits]
  rcases fieldS_cases w with hS | hS
  · rw [viewV_of_fieldS_zero hS, hS]
    omega
  · rw [viewV_of_fieldS_one hS, hS]
    omega

/-- Settles O10: the view is `viewV13_eq_viewV`; the two ranges are those of the mantissa field. -/
theorem thirteenBitViewIsTheSignificand : Obligations.ThirteenBitViewIsTheSignificand :=
  fun w => ⟨viewV13_eq_viewV w, fun h => ⟨viewV_of_fieldS_zero h, viewV_bounds_of_fieldS_zero h⟩,
    fun h => ⟨viewV_of_fieldS_one h, viewV_bounds_of_fieldS_one h⟩⟩

end Sys2Proof.Machine
end

section
/-! PROOF. Where the values of each sign and exponent field lie, which whole numbers of steps are values, and
that no two words share a value (40_format_values.md R94 to R105). -/

namespace Sys2Proof.Machine

theorem wordStep_of_fieldE_zero {w : Hsnr} (h : fieldE w = 0) : wordStep w = 2 ^ (-24 : ℤ) := by
  rw [wordStep, h]
  norm_num

theorem wordStep_of_fieldE_pos {w : Hsnr} (h : 1 ≤ fieldE w) : wordStep w = 2 ^ ((fieldE w : ℤ) - 25) := by
  rw [wordStep, max_eq_left (by omega)]

/-- The small end of a normalised binade in steps. -/
theorem two_zpow_sub_14 {w : Hsnr} (h : 1 ≤ fieldE w) :
    (2 : ℚ) ^ ((fieldE w : ℤ) - 14) = 2048 * wordStep w := by
  have hexp : (fieldE w : ℤ) - 14 = 11 + ((fieldE w : ℤ) - 25) := by ring
  rw [wordStep_of_fieldE_pos h, hexp, zpow_add₀ two_ne_zero]
  norm_num

/-- The number of steps from 0 to the large end of an exponent field's values. -/
def topSteps (w : Hsnr) : Int := if fieldE w = 0 then 2048 else 4096

theorem topSteps_of_fieldE_zero {w : Hsnr} (h : fieldE w = 0) : topSteps w = 2048 := if_pos h

theorem topSteps_of_fieldE_pos {w : Hsnr} (h : 1 ≤ fieldE w) : topSteps w = 4096 := if_neg (by omega)

/-- The large end of an exponent field's values, soft underflow included. -/
theorem two_zpow_sub_13 (w : Hsnr) : (2 : ℚ) ^ ((fieldE w : ℤ) - 13) = topSteps w * wordStep w := by
  by_cases h : fieldE w = 0
  · rw [topSteps_of_fieldE_zero h, wordStep_of_fieldE_zero h, h]
    norm_num
  · have hpos : 1 ≤ fieldE w := by omega
    have hexp : (fieldE w : ℤ) - 13 = 1 + ((fieldE w : ℤ) - 14) := by ring
    rw [topSteps_of_fieldE_pos hpos, hexp, zpow_add₀ two_ne_zero, two_zpow_sub_14 hpos]
    push_cast
    ring

theorem significand_lt_topSteps (w : Hsnr) : significand w < topSteps w := by
  have := fieldM_lt w
  rw [topSteps]
  rcases fieldS_cases w with hS | hS
  · rw [significand_of_fieldS_zero hS]
    split <;> omega
  · rw [significand_of_fieldS_one hS]
    split <;> omega

theorem neg_topSteps_le_significand (w : Hsnr) : -topSteps w ≤ significand w := by
  rw [topSteps]
  rcases fieldS_cases w with hS | hS
  · rw [significand_of_fieldS_zero hS]
    split <;> omega
  · rw [significand_of_fieldS_one hS]
    split <;> omega

theorem significand_of_fieldE_pos {w : Hsnr} (h : 1 ≤ fieldE w) : significand w = viewV w :=
  if_neg (by omega)

theorem hval_lt_two_zpow (w : Hsnr) : hval w < (2 : ℚ) ^ ((fieldE w : ℤ) - 13) := by
  rw [hval_eq_significand_mul_wordStep, two_zpow_sub_13]
  exact mul_lt_mul_of_pos_right (Int.cast_lt.mpr (significand_lt_topSteps w)) (wordStep_pos w)

theorem neg_two_zpow_le_hval (w : Hsnr) : -(2 : ℚ) ^ ((fieldE w : ℤ) - 13) ≤ hval w := by
  rw [hval_eq_significand_mul_wordStep, two_zpow_sub_13, ← neg_mul, ← Int.cast_neg]
  exact mul_le_mul_of_nonneg_right (Int.cast_le.mpr (neg_topSteps_le_significand w)) (wordStep_pos w).le

theorem two_zpow_le_hval {w : Hsnr} (hE : 1 ≤ fieldE w) (hS : fieldS w = 0) :
    (2 : ℚ) ^ ((fieldE w : ℤ) - 14) ≤ hval w := by
  have hlow : (2048 : ℚ) ≤ significand w := by
    rw [significand_of_fieldE_pos hE]
    exact_mod_cast (viewV_bounds_of_fieldS_zero hS).1
  rw [hval_eq_significand_mul_wordStep, two_zpow_sub_14 hE]
  exact mul_le_mul_of_nonneg_right hlow (wordStep_pos w).le

theorem hval_lt_neg_two_zpow {w : Hsnr} (hE : 1 ≤ fieldE w) (hS : fieldS w = 1) :
    hval w < -(2 : ℚ) ^ ((fieldE w : ℤ) - 14) := by
  have hhigh : (significand w : ℚ) ≤ -2049 := by
    rw [significand_of_fieldE_pos hE]
    exact_mod_cast (viewV_bounds_of_fieldS_one hS).2
  have hlt : (significand w : ℚ) < -2048 := by linarith
  rw [hval_eq_significand_mul_wordStep, two_zpow_sub_14 hE, ← neg_mul]
  exact mul_lt_mul_of_pos_right hlt (wordStep_pos w)

/-- A smaller exponent field's binade ends where a larger one's begins, or before. -/
theorem two_zpow_sub_13_le_of_fieldE_lt {w v : Hsnr} (h : fieldE w < fieldE v) :
    (2 : ℚ) ^ ((fieldE w : ℤ) - 13) ≤ 2 ^ ((fieldE v : ℤ) - 14) :=
  zpow_le_zpow_right₀ one_le_two (by omega)

theorem hval_lt_of_fieldE_lt {w v : Hsnr} (hS : fieldS v = 0) (h : fieldE w < fieldE v) :
    hval w < hval v :=
  calc hval w < 2 ^ ((fieldE w : ℤ) - 13) := hval_lt_two_zpow w
    _ ≤ 2 ^ ((fieldE v : ℤ) - 14) := two_zpow_sub_13_le_of_fieldE_lt h
    _ ≤ hval v := two_zpow_le_hval (by omega) hS

theorem hval_gt_of_fieldE_lt {w v : Hsnr} (hS : fieldS v = 1) (h : fieldE w < fieldE v) :
    hval v < hval w :=
  calc hval v < -2 ^ ((fieldE v : ℤ) - 14) := hval_lt_neg_two_zpow (by omega) hS
    _ ≤ -2 ^ ((fieldE w : ℤ) - 13) := neg_le_neg (two_zpow_sub_13_le_of_fieldE_lt h)
    _ ≤ hval w := neg_two_zpow_le_hval w

theorem fieldS_eq_one_iff_hval_neg (w : Hsnr) : fieldS w = 1 ↔ hval w < 0 := by
  refine ⟨hval_neg, fun h => ?_⟩
  rcases fieldS_cases w with hS | hS
  · exact absurd h (not_lt.2 (hval_nonneg hS))
  · exact hS

/-- Settles O11. -/
theorem signBitIsTheSignOfTheValue : Obligations.SignBitIsTheSignOfTheValue := fieldS_eq_one_iff_hval_neg

theorem fieldS_eq_of_hval_eq {w v : Hsnr} (h : hval w = hval v) : fieldS w = fieldS v := by
  have hw := fieldS_eq_one_iff_hval_neg w
  rw [h, ← fieldS_eq_one_iff_hval_neg v] at hw
  have := fieldS_cases w
  have := fieldS_cases v
  omega

/-- The binades of one sign do not meet. -/
theorem fieldE_eq_of_hval_eq {w v : Hsnr} (h : hval w = hval v) : fieldE w = fieldE v := by
  have hS := fieldS_eq_of_hval_eq h
  rcases fieldS_cases v with hSv | hSv
  · rcases lt_trichotomy (fieldE w) (fieldE v) with hlt | heq | hgt
    · exact absurd h (hval_lt_of_fieldE_lt hSv hlt).ne
    · exact heq
    · exact absurd h (hval_lt_of_fieldE_lt (hS.trans hSv) hgt).ne'
  · rcases lt_trichotomy (fieldE w) (fieldE v) with hlt | heq | hgt
    · exact absurd h (hval_gt_of_fieldE_lt hSv hlt).ne'
    · exact heq
    · exact absurd h (hval_gt_of_fieldE_lt (hS.trans hSv) hgt).ne

/-- Equal values have equal signs, equal exponents and equal mantissas (40_format_values.md R96). -/
theorem hval_injective : Function.Injective hval := by
  intro w v h
  have hS := fieldS_eq_of_hval_eq h
  have hE := fieldE_eq_of_hval_eq h
  rcases lt_trichotomy (fieldM w) (fieldM v) with hlt | heq | hgt
  · exact absurd h (hval_lt_of_fieldM_lt hE hS hlt).ne
  · exact eq_of_fields hE hS heq
  · exact absurd h (hval_lt_of_fieldM_lt hE.symm hS.symm hgt).ne'

/-- Settles O14. -/
theorem differentWordsHaveDifferentValues : Obligations.DifferentWordsHaveDifferentValues :=
  fun _ _ h => hval_injective h

/-- For `S = 0` the order of the words is that of the exponents, then that of the mantissas. -/
theorem hval_lt_of_toNat_lt {w v : Hsnr} (hSw : fieldS w = 0) (hSv : fieldS v = 0)
    (h : w.toNat < v.toNat) : hval w < hval v := by
  have hw := toNat_of_fields w
  have hv := toNat_of_fields v
  have := fieldM_lt w
  have := fieldM_lt v
  rcases Nat.lt_or_ge (fieldE w) (fieldE v) with hE | hE
  · exact hval_lt_of_fieldE_lt hSv hE
  · exact hval_lt_of_fieldM_lt (by omega) (hSw.trans hSv.symm) (by omega)

/-- Settles O19: for `S = 0` `hval_lt_of_toNat_lt` both ways round, for `S = 1` the binades and the mantissas. -/
theorem orderOfWordsAgainstOrderOfValues : Obligations.OrderOfWordsAgainstOrderOfValues := by
  refine fun w v => ⟨fun hSw hSv => ⟨hval_lt_of_toNat_lt hSw hSv, fun h => ?_⟩,
    fun _ hSv hE => hval_gt_of_fieldE_lt hSv hE,
    fun hSw hSv hE hM => hval_lt_of_fieldM_lt hE (hSw.trans hSv.symm) hM⟩
  rcases lt_trichotomy w.toNat v.toNat with hlt | heq | hgt
  · exact hlt
  · exact absurd h (by rw [BitVec.eq_of_toNat_eq heq]; exact lt_irrefl _)
  · exact absurd h (hval_lt_of_toNat_lt hSv hSw hgt).not_gt

theorem hval_of_fieldE_pos {w : Hsnr} {k : Int} (hE : 1 ≤ fieldE w) (hV : viewV w = k) :
    hval w = k * (2 : ℚ) ^ ((fieldE w : ℤ) - 25) := by
  rw [hval, if_neg (by omega), hV]

theorem hval_of_fieldE_zero {w : Hsnr} {k : Int} (hE : fieldE w = 0) (hT : viewT w = k) :
    hval w = k * (2 : ℚ) ^ (-24 : ℤ) := by
  rw [hval, if_pos hE, hT]

/-- The word of `S = 1` and `M = 0` is the negative power of two at the large end of its exponent field. -/
theorem hval_of_neg_of_fieldM_zero {w : Hsnr} (hS : fieldS w = 1) (hM : fieldM w = 0) :
    hval w = -(2 : ℚ) ^ ((fieldE w : ℤ) - 13) := by
  have hsig : significand w = -topSteps w := by
    rw [significand_of_fieldS_one hS, topSteps, hM]
    split <;> rfl
  rw [hval_eq_significand_mul_wordStep, two_zpow_sub_13, hsig, Int.cast_neg, neg_mul]

theorem hval_zero : hval 0x0000#16 = 0 := by
  rw [hval_of_fieldE_zero (k := 0) (by decide) (by decide), Int.cast_zero, zero_mul]

/-- `0x0800` is no negative zero (40_format_values.md R97). -/
theorem hval_0x0800 : hval 0x0800#16 = -(2 : ℚ) ^ (-13 : ℤ) :=
  hval_of_neg_of_fieldM_zero (by decide) (by decide)

/-- Settles O12: the zero word has value 0, and values are not shared. -/
theorem onlyTheZeroWordIsZero : Obligations.OnlyTheZeroWordIsZero :=
  ⟨fun _ => ⟨fun h => hval_injective (h.trans hval_zero.symm), fun h => h ▸ hval_zero⟩, hval_0x0800⟩

theorem exists_word_of_fields {e s m : Nat} (he : e < 16) (hs : s < 2) (hm : m < 2048) :
    ∃ w : Hsnr, fieldE w = e ∧ fieldS w = s ∧ fieldM w = m :=
  ⟨pack e s m, fields_pack_of_lt he hs hm⟩

theorem exists_word_of_viewV_pos {e : Nat} {k : Int} (he : e < 16) (hlo : 2048 ≤ k) (hhi : k ≤ 4095) :
    ∃ w : Hsnr, fieldE w = e ∧ fieldS w = 0 ∧ viewV w = k := by
  obtain ⟨w, hE, hS, hM⟩ := exists_word_of_fields (s := 0) (m := (k - 2048).toNat) he (by omega) (by omega)
  exact ⟨w, hE, hS, by rw [viewV_of_fieldS_zero hS, hM]; omega⟩

theorem exists_word_of_viewV_neg {e : Nat} {k : Int} (he : e < 16) (hlo : -4096 ≤ k) (hhi : k ≤ -2049) :
    ∃ w : Hsnr, fieldE w = e ∧ fieldS w = 1 ∧ viewV w = k := by
  obtain ⟨w, hE, hS, hM⟩ := exists_word_of_fields (s := 1) (m := (k + 4096).toNat) he (by omega) (by omega)
  exact ⟨w, hE, hS, by rw [viewV_of_fieldS_one hS, hM]; omega⟩

theorem exists_word_of_viewT {k : Int} (hlo : -2048 ≤ k) (hhi : k ≤ 2047) :
    ∃ w : Hsnr, fieldE w = 0 ∧ viewT w = k := by
  obtain ⟨w, hE, hS, hM⟩ := exists_word_of_fields (e := 0) (s := if k < 0 then 1 else 0)
    (m := (k % 2048).toNat) (by omega) (by split <;> omega) (by omega)
  refine ⟨w, hE, ?_⟩
  rw [viewT_eq, hS, hM]
  split <;> omega

/-- Settles O16: the binades are bounded by whole numbers of steps; the ends are the significands of `M = 0`
and `M = 2047`; a word of given significand exists. -/
theorem valuesFillTheirBinade : Obligations.ValuesFillTheirBinade := by
  refine ⟨fun w => ⟨fun hE hS => ⟨two_zpow_le_hval hE hS, hval_lt_two_zpow w⟩,
    fun hE hS => ⟨neg_two_zpow_le_hval w, hval_lt_neg_two_zpow hE hS⟩, fun hE => ?_⟩,
    fun w => ⟨fun hE hS => ?_, fun hE hS => ?_, fun hE hS => ?_, fun hE hS => ?_⟩,
    fun e k hlo hhi => ⟨fun h h' => ?_, fun h h' => ?_⟩, fun k h h' => ?_⟩
  · have hlow := neg_two_zpow_le_hval w
    have hhigh := hval_lt_two_zpow w
    rw [hE] at hlow hhigh
    exact ⟨hlow, hhigh⟩
  · have hV := viewV_of_fieldS_zero hS
    refine ⟨fun hM => ?_, fun hM => ?_⟩
    · rw [hval_eq_significand_mul_wordStep, two_zpow_sub_14 hE, significand_of_fieldE_pos hE, hV, hM]
      norm_num
    · rw [hval_of_fieldE_pos (k := 4095) hE (by omega)]
      norm_num
  · have hV := viewV_of_fieldS_one hS
    refine ⟨fun hM => hval_of_neg_of_fieldM_zero hS hM, fun hM => ?_⟩
    rw [hval_of_fieldE_pos (k := -2049) hE (by omega)]
    norm_num
  · have hT := viewT_eq w
    refine ⟨fun hM => ?_, fun hM => ?_⟩
    · rw [hval_of_fieldE_zero (k := 0) hE (by omega), Int.cast_zero, zero_mul]
    · rw [hval_of_fieldE_zero (k := 2047) hE (by omega), Int.cast_ofNat]
  · have hT := viewT_eq w
    refine ⟨fun hM => ?_, fun hM => ?_⟩
    · rw [hval_of_neg_of_fieldM_zero hS hM, hE]
      norm_num
    · rw [hval_of_fieldE_zero (k := -1) hE (by omega)]
      norm_num
  · obtain ⟨w, hE, hS, hV⟩ := exists_word_of_viewV_pos (e := e) (by omega) h h'
    exact ⟨w, hE, hS, hE ▸ hval_of_fieldE_pos (by omega) hV⟩
  · obtain ⟨w, hE, hS, hV⟩ := exists_word_of_viewV_neg (e := e) (by omega) h h'
    exact ⟨w, hE, hS, hE ▸ hval_of_fieldE_pos (by omega) hV⟩
  · obtain ⟨w, hE, hT⟩ := exists_word_of_viewT h h'
    exact ⟨w, hE, hval_of_fieldE_zero hE hT⟩

/-- The smallest step is that of both regimes' first words, so `E = 0` and `E = 1` join (40_format_values.md
R100). -/
theorem exists_word_of_smallest_steps {k : Int} (hlo : -4096 ≤ k) (hhi : k ≤ 4095) :
    ∃ w : Hsnr, hval w = k * (2 : ℚ) ^ (-24 : ℤ) ∧ fieldE w ≤ 1 := by
  rcases lt_or_ge k (-2048) with hneg | hge
  · obtain ⟨w, hE, -, hV⟩ := exists_word_of_viewV_neg (e := 1) (by omega) hlo (by omega)
    exact ⟨w, by rw [hval_of_fieldE_pos (by omega) hV, hE]; norm_num, by omega⟩
  rcases lt_or_ge 2047 k with hpos | hle
  · obtain ⟨w, hE, -, hV⟩ := exists_word_of_viewV_pos (e := 1) (by omega) (by omega) hhi
    exact ⟨w, by rw [hval_of_fieldE_pos (by omega) hV, hE]; norm_num, by omega⟩
  · obtain ⟨w, hE, hT⟩ := exists_word_of_viewT hge hle
    exact ⟨w, hval_of_fieldE_zero hE hT, by omega⟩

/-- Settles O17: the word is that of `exists_word_of_smallest_steps`, the only one by `hval_injective`. -/
theorem regimesJoinWithoutAGap : Obligations.RegimesJoinWithoutAGap := by
  intro k hlo hhi
  obtain ⟨w, hw, hE⟩ := exists_word_of_smallest_steps hlo hhi
  exact ⟨w, hw, hE, fun v hv => hval_injective (hv.trans hw.symm)⟩

/-- Every multiple of a normalised binade's step in the binade, of either sign, is a value. -/
theorem exists_hval_of_binade {e : Nat} {k : Int} (hlo : 1 ≤ e) (hhi : e < 16)
    (hk : 2048 ≤ k ∧ k ≤ 4095 ∨ -4096 ≤ k ∧ k ≤ -2049) :
    ∃ w : Hsnr, hval w = k * (2 : ℚ) ^ ((e : ℤ) - 25) := by
  rcases hk with ⟨h, h'⟩ | ⟨h, h'⟩
  · obtain ⟨w, hE, -, hV⟩ := exists_word_of_viewV_pos hhi h h'
    exact ⟨w, hE ▸ hval_of_fieldE_pos (by omega) hV⟩
  · obtain ⟨w, hE, -, hV⟩ := exists_word_of_viewV_neg hhi h h'
    exact ⟨w, hE ▸ hval_of_fieldE_pos (by omega) hV⟩

theorem exists_neg_of_fieldE_le_one {w : Hsnr} (hE : fieldE w ≤ 1) : ∃ v : Hsnr, hval v = -hval w := by
  have hstep : wordStep w = 2 ^ (-24 : ℤ) := by
    rw [wordStep, max_eq_right (by omega)]
    norm_num
  obtain ⟨hlo, hhi⟩ := significand_bounds w
  rw [hval_eq_significand_mul_wordStep, hstep, ← neg_mul, ← Int.cast_neg]
  by_cases hmin : significand w = -4096
  · obtain ⟨v, hv⟩ := exists_hval_of_binade (e := 2) (k := 2048) (by omega) (by omega) (by omega)
    refine ⟨v, ?_⟩
    rw [hv, hmin]
    norm_num
  · obtain ⟨v, hv, -⟩ := exists_word_of_smallest_steps (k := -significand w) (by omega) (by omega)
    exact ⟨v, hv⟩

/-- The negation stays in the binade but at its two power-of-two ends, where it is the end of a neighbouring
binade; the binade above `E = 15` does not exist. -/
theorem exists_neg_of_one_lt_fieldE {w : Hsnr} (hE : 1 < fieldE w) (hne : w ≠ 0xF800#16) :
    ∃ v : Hsnr, hval v = -hval w := by
  have hE16 := fieldE_lt w
  have hM := fieldM_lt w
  rw [hval_of_fieldE_pos (w := w) (by omega) rfl, ← neg_mul, ← Int.cast_neg]
  rcases fieldS_cases w with hS | hS
  · have hV := viewV_of_fieldS_zero hS
    by_cases hM0 : fieldM w = 0
    · obtain ⟨v, hv⟩ := exists_hval_of_binade (e := fieldE w - 1) (k := -4096) (by omega) (by omega) (by omega)
      have hexp : (fieldE w : ℤ) - 25 = 1 + (((fieldE w - 1 : ℕ) : ℤ) - 25) := by omega
      refine ⟨v, ?_⟩
      rw [hv, hexp, zpow_add₀ two_ne_zero, hV, hM0]
      push_cast
      ring
    · exact exists_hval_of_binade (by omega) hE16 (by omega)
  · have hV := viewV_of_fieldS_one hS
    by_cases hM0 : fieldM w = 0
    · have hE15 : fieldE w ≠ 15 := fun h => hne (eq_of_fields (h.trans (by decide)) (hS.trans (by decide))
        (hM0.trans (by decide)))
      obtain ⟨v, hv⟩ := exists_hval_of_binade (e := fieldE w + 1) (k := 2048) (by omega) (by omega) (by omega)
      have hexp : ((fieldE w + 1 : ℕ) : ℤ) - 25 = 1 + ((fieldE w : ℤ) - 25) := by omega
      refine ⟨v, ?_⟩
      rw [hv, hexp, zpow_add₀ two_ne_zero, hV, hM0]
      push_cast
      ring
    · exact exists_hval_of_binade (by omega) hE16 (by omega)

/-- Settles O18: 4.0 is above every value; any other word's negation is built. -/
theorem negationOfAValueIsAValueButForMinusFour : Obligations.NegationOfAValueIsAValueButForMinusFour := by
  intro w
  constructor
  · rintro ⟨v, hv⟩ rfl
    have hmax := (hval_mem_range v).2
    obtain ⟨-, -, -, hmin, -⟩ := everyValueLiesInTheRange
    rw [hv, hmin, HSNR_MIN, HSNR_MAX_eq] at hmax
    norm_num at hmax
  · intro hne
    rcases Nat.lt_or_ge 1 (fieldE w) with hE | hE
    · exact exists_neg_of_one_lt_fieldE hE hne
    · exact exists_neg_of_fieldE_le_one hE

/-- The magnitude of a normalised word is 2048 to 4096 steps. -/
theorem abs_hval_bounds {w : Hsnr} (hE : 1 ≤ fieldE w) :
    2048 * wordStep w ≤ |hval w| ∧ |hval w| ≤ 4096 * wordStep w := by
  have hV : 2048 ≤ |viewV w| ∧ |viewV w| ≤ 4096 := by
    rcases fieldS_cases w with hS | hS
    · have := viewV_bounds_of_fieldS_zero hS
      rw [abs_of_nonneg (by omega)]
      omega
    · have := viewV_bounds_of_fieldS_one hS
      rw [abs_of_neg (by omega)]
      omega
  obtain ⟨hlo, hhi⟩ := hV
  have hpos := wordStep_pos w
  rw [hval_eq_significand_mul_wordStep, abs_mul, abs_of_pos hpos, significand_of_fieldE_pos hE, ← Int.cast_abs]
  exact ⟨mul_le_mul_of_nonneg_right (by exact_mod_cast hlo) hpos.le,
    mul_le_mul_of_nonneg_right (by exact_mod_cast hhi) hpos.le⟩

/-- Settles O20: both forms are `V` steps, and the magnitude is 2048 to 4096 steps. -/
theorem normalisedWordsHaveTwelveSignificantBits : Obligations.NormalisedWordsHaveTwelveSignificantBits := by
  intro w hE
  obtain ⟨hlo, hhi⟩ := abs_hval_bounds hE
  rw [two_zpow_sub_14 hE, ← wordStep_of_fieldE_pos hE]
  refine ⟨fun hS => ?_, fun hS => ?_, ?_, ?_⟩
  · rw [hval_eq_significand_mul_wordStep, significand_of_fieldE_pos hE, viewV_of_fieldS_zero hS]
    push_cast
    ring
  · rw [hval_eq_significand_mul_wordStep, significand_of_fieldE_pos hE, viewV_of_fieldS_one hS]
    push_cast
    ring
  · norm_num
    linarith
  · norm_num
    linarith

theorem value_tagOf (w : Hsnr) : (tagOf w).value = hval w := by
  rw [tagOf, hval]
  split <;> rfl

theorem legal_tagOf (w : Hsnr) : (tagOf w).legal = true := by
  have hE := fieldE_lt w
  rw [tagOf]
  split
  next h =>
    have hT := viewT_bounds w
    simpa [Tagged.legal] using hT
  next h =>
    rcases fieldS_cases w with hS | hS
    · have := viewV_bounds_of_fieldS_zero hS
      simp only [Tagged.legal, decide_eq_true_eq]
      omega
    · have := viewV_bounds_of_fieldS_one hS
      simp only [Tagged.legal, decide_eq_true_eq]
      omega

theorem exists_word_of_legal {t : Tagged} (h : t.legal = true) : ∃ w : Hsnr, tagOf w = t := by
  cases t with
  | normalised e v =>
    simp only [Tagged.legal, decide_eq_true_eq] at h
    obtain ⟨hlo, hhi, hv | hv⟩ := h
    · obtain ⟨w, hE, -, hV⟩ := exists_word_of_viewV_neg (e := e) (by omega) hv.1 hv.2
      exact ⟨w, by rw [tagOf, if_neg (by omega), hE, hV]⟩
    · obtain ⟨w, hE, -, hV⟩ := exists_word_of_viewV_pos (e := e) (by omega) hv.1 hv.2
      exact ⟨w, by rw [tagOf, if_neg (by omega), hE, hV]⟩
  | underflow t =>
    simp only [Tagged.legal, decide_eq_true_eq] at h
    obtain ⟨w, hE, hT⟩ := exists_word_of_viewT h.1 h.2
    exact ⟨w, by rw [tagOf, if_pos hE, hT]⟩

/-- Settles O21: equal tags have equal values, hence equal words. -/
theorem taggedValueIsABijection : Obligations.TaggedValueIsABijection :=
  ⟨fun w => ⟨legal_tagOf w, value_tagOf w⟩,
    fun w v h => hval_injective (by rw [← value_tagOf, ← value_tagOf, h]), fun _ => exists_word_of_legal⟩

end Sys2Proof.Machine
end

section
/-! PROOF. The decoder's result is the only pattern of its value and has a short fraction (42_decoder.md R145 to
R149); what `HSNR.DEC` leaves as it was. -/

namespace Sys2Proof.Machine

theorem magnitudeValue_zero : magnitudeValue 0 = 0 := by norm_num [magnitudeValue, magnitudeUnits]

/-- A number has one pattern, but zero has one of each sign (30_encoding.md R66). -/
theorem eq_or_magnitude_zero_of_finiteValue_eq {x y : F32} (h : finiteValue x = finiteValue y) :
    x = y ∨ (magnitude x = 0 ∧ magnitude y = 0) := by
  have habs : magnitudeValue (magnitude x) = magnitudeValue (magnitude y) := by
    rw [← abs_finiteValue, ← abs_finiteValue, h]
  have hmag := magnitudeValue_strictMono.injective habs
  have hzero (hopposite : magnitudeValue (magnitude y) = -magnitudeValue (magnitude y)) : magnitude y = 0 :=
    magnitudeValue_strictMono.injective ((self_eq_neg.1 hopposite).trans magnitudeValue_zero.symm)
  by_cases hSf : fieldSf x = fieldSf y
  · exact .inl (eq_of_sign_of_magnitude hSf hmag)
  · right
    rw [hmag, and_self]
    rcases fieldSf_cases x with hx | hx <;> rcases fieldSf_cases y with hy | hy
    · exact absurd (hx.trans hy.symm) hSf
    · rw [finiteValue_of_fieldSf_zero hx, finiteValue_of_fieldSf_one hy, hmag] at h
      exact hzero h
    · rw [finiteValue_of_fieldSf_one hx, finiteValue_of_fieldSf_zero hy, hmag] at h
      exact hzero h.symm
    · exact absurd (hx.trans hy.symm) hSf

theorem eq_zero_pattern_of_magnitude_zero {x : F32} (h : magnitude x = 0) :
    x = 0x00000000#32 ∨ x = 0x80000000#32 := by
  rcases fieldSf_cases x with hSf | hSf
  · exact .inl (eq_of_sign_of_magnitude (hSf.trans (by decide)) (h.trans (by decide)))
  · exact .inr (eq_of_sign_of_magnitude (hSf.trans (by decide)) (h.trans (by decide)))

theorem eq_dec_or_minus_zero {w : Hsnr} {x : F32} (h : f32val x = .finite (hval w)) :
    x = dec w ∨ (w = 0x0000#16 ∧ x = 0x80000000#32) := by
  have hvalue := (finiteValue_of_f32val h).trans (finiteValue_of_f32val (f32val_dec w)).symm
  rcases eq_or_magnitude_zero_of_finiteValue_eq hvalue with heq | ⟨hx, hdec⟩
  · exact .inl heq
  · have hEf : fieldEf (dec w) = 0 := by
      rw [magnitude_of_fields] at hdec
      omega
    have hw := eq_zero_of_fieldEf_dec hEf
    rcases eq_zero_pattern_of_magnitude_zero hx with hplus | hminus
    · exact .inl (by rw [hplus, hw, dec_zero])
    · exact .inr ⟨hw, hminus⟩

/-- Settles O24. -/
theorem decPatternIsUniqueButForTheSignOfZero : Obligations.DecPatternIsUniqueButForTheSignOfZero :=
  fun _ _ h => eq_dec_or_minus_zero h

section
variable {n : Int} {k : Nat} (hn : n ≠ 0) (h24 : n.natAbs < 2 ^ 24) (hk : k + highBit n.natAbs < 255)
include hn h24 hk

theorem fieldSf_exactPattern : fieldSf (exactPattern n k) = if n < 0 then 1 else 0 :=
  fieldSf_f32 (by split <;> omega) (by omega) (fraction_lt (Int.natAbs_ne_zero.2 hn) h24)

theorem fieldMf_exactPattern :
    fieldMf (exactPattern n k) = (n.natAbs - 2 ^ highBit n.natAbs) <<< (23 - highBit n.natAbs) :=
  fieldMf_f32 (by split <;> omega) (by omega) (fraction_lt (Int.natAbs_ne_zero.2 hn) h24)

end

/-- A number of at most 12 bits, or 4096, leaves the low 12 of 23 fraction bits free. -/
theorem fraction_mod_4096 {a : Nat} (ha : a ≠ 0) (h : a ≤ 4096) :
    (a - 2 ^ highBit a) <<< (23 - highBit a) % 4096 = 0 := by
  rcases Nat.lt_or_ge a 4096 with hlt | hge
  · have hp : highBit a < 12 := highBit_lt ha hlt
    have hshift : 23 - highBit a = 12 + (11 - highBit a) := by omega
    rw [Nat.shiftLeft_eq, hshift, pow_add]
    exact Nat.mod_eq_zero_of_dvd (Dvd.dvd.mul_left (Dvd.intro _ rfl) _)
  · obtain rfl : a = 2 ^ 12 := by omega
    rw [highBit_eq (p := 12) le_rfl (by norm_num), Nat.sub_self, Nat.zero_shiftLeft]

theorem fieldMf_dec_mod_4096 (w : Hsnr) : fieldMf (dec w) % 4096 = 0 := by
  by_cases h : significand w = 0
  · rw [eq_zero_of_significand_eq_zero h]
    decide
  · obtain ⟨h24, hk, -⟩ := exactPattern_fits h
    have := significand_bounds w
    rw [dec_eq_exactPattern h, fieldMf_exactPattern h h24 hk]
    exact fraction_mod_4096 (Int.natAbs_ne_zero.2 h) (by omega)

theorem fieldEf_dec_bounds {w : Hsnr} (hw : w ≠ 0x0000#16) :
    103 ≤ fieldEf (dec w) ∧ fieldEf (dec w) ≤ 129 := by
  have h : significand w ≠ 0 := fun h => hw (eq_zero_of_significand_eq_zero h)
  obtain ⟨h24, hk, -⟩ := exactPattern_fits h
  have := fieldE_lt w
  have := significand_bounds w
  have hp : highBit (significand w).natAbs < 13 := highBit_lt (Int.natAbs_ne_zero.2 h) (by omega)
  rw [dec_eq_exactPattern h, fieldEf_exactPattern h h24 hk, stepOffset]
  omega

theorem fieldSf_dec (w : Hsnr) : fieldSf (dec w) = fieldS w := by
  by_cases h : significand w = 0
  · rw [eq_zero_of_significand_eq_zero h]
    decide
  · obtain ⟨h24, hk, -⟩ := exactPattern_fits h
    rw [dec_eq_exactPattern h, fieldSf_exactPattern h h24 hk]
    rcases fieldS_cases w with hS | hS
    · rw [if_neg (significand_nonneg hS).not_gt, hS]
    · rw [if_pos (significand_neg hS), hS]

/-- Settles O26. -/
theorem decResultsHaveElevenFractionBits : Obligations.DecResultsHaveElevenFractionBits :=
  fun w => ⟨fieldMf_dec_mod_4096 w, fieldEf_dec_bounds, fieldSf_dec w⟩

theorem encY_of_driven_ok {s : State} {a : F32} {y : Hsnr} (h : s.encA = some a) (hy : enc a = .ok y) :
    s.encY = y := by
  simp [State.encY, h, hy]

theorem decY_of_driven {s : State} {w : Hsnr} (h : s.decA = some w) : s.decY = dec w := by
  simp [State.decY, h]

/-- The encoder's outputs depend on its own operand, while there is one (10_state.md R27). -/
theorem enc_outputs_of_same_operand {s t : State} (h : t.encA = s.encA) (hs : s.encA.isSome = true) :
    t.encOor = s.encOor ∧ (s.encOor = false → t.encY = s.encY) := by
  obtain ⟨a, ha⟩ := Option.isSome_iff_exists.1 hs
  have hta := h.trans ha
  rw [encOor_of_driven ha, encOor_of_driven hta]
  refine ⟨rfl, fun hoor => ?_⟩
  cases hr : enc a with
  | ok y => rw [encY_of_driven_ok ha hr, encY_of_driven_ok hta hr]
  | outOfRange => simp [hr, oorOf] at hoor

theorem dec_output_of_same_operand {s t : State} (h : t.decA = s.decA) (hs : s.decA.isSome = true) :
    t.decY = s.decY := by
  obtain ⟨w, hw⟩ := Option.isSome_iff_exists.1 hs
  rw [decY_of_driven hw, decY_of_driven (h.trans hw)]

/-- Settles O22: the pattern is `dec w`, of the exact value by `f32val_dec`; the next state is `exec_dec`'s. -/
theorem decCompletesWithTheExactValue : Obligations.DecCompletesWithTheExactValue :=
  fun w => ⟨dec w, f32val_dec w, fun x s => ⟨_, exec_dec x w s, rfl, rfl, decY_of_driven rfl, rfl,
    enc_outputs_of_same_operand rfl, rfl, rfl, rfl⟩⟩

end Sys2Proof.Machine
end

section
/-! PROOF. The range check for every pattern, and completion of `HSNR.ENC` (41_encoder.md R110 to R113, R133). -/

namespace Sys2Proof.Machine

theorem outsideRange_finite (q : ℚ) :
    outsideRange (.finite q) = true ↔ q < -4 ∨ 3.9990234375 < q := by
  have hmax : HSNR_MAX = 3.9990234375 := by norm_num [HSNR_MAX]
  rw [outsideRange, decide_eq_true_eq, HSNR_MIN, hmax]

theorem outsideRange_of_fieldEf_255 {a : F32} (h : fieldEf a = 255) : outsideRange (f32val a) = true := by
  rw [f32val, if_pos h]
  split_ifs <;> rfl

/-- The pattern check and the value check agree on every pattern (41_encoder.md R133, D4 for a NaN). -/
theorem rejects_eq_outsideRange (a : F32) : rejects a = outsideRange (f32val a) := by
  by_cases h : fieldEf a = 255
  · rw [rejects_of_fieldEf_255 h, outsideRange_of_fieldEf_255 h]
  · rw [f32val_of_ne h, Bool.eq_iff_iff, rejects_iff_finiteValue, outsideRange_finite]

/-- The accepted operands in terms of the three fields (41_encoder.md R133). -/
theorem accepted_iff (a : F32) :
    rejects a = false ↔
      (fieldSf a = 0 ∧ 8388608 * fieldEf a + fieldMf a ≤ 0x407FF000) ∨
      (fieldSf a = 1 ∧ 8388608 * fieldEf a + fieldMf a ≤ 0x40800000) := by
  have := fieldSf_cases a
  rw [← Bool.not_eq_true, rejects_iff]
  omega

theorem accepted_iff_toNat (a : F32) :
    rejects a = false ↔ a.toNat ≤ 0x407FF000 ∨ (0x80000000 ≤ a.toNat ∧ a.toNat ≤ 0xC0800000) := by
  have hfields := toNat_of_f32_fields a
  have := fieldEf_lt a
  have := fieldMf_lt a
  have := fieldSf_cases a
  rw [accepted_iff]
  omega

theorem encWith_of_not_nan (p : Params) {a : F32} (h : isNaN a = false) :
    encWith p a = if rejects a then .outOfRange else .ok (encWord p a) := by
  simp [encWith, h]

/-- Settles O29: the two checks agree by `rejects_eq_outsideRange`; the policies are the cases of `encWith`. -/
theorem patternRangeCheckIsTheValueRangeCheck : Obligations.PatternRangeCheckIsTheValueRangeCheck := by
  refine fun a => ⟨rejects_eq_outsideRange a, accepted_iff_toNat a, isNaN_iff_f32val a,
    fun p hnan => ⟨fun hp => ?_, fun hp => ?_⟩, fun p hnan => ?_⟩
  · have hrejects : rejects a = true := by rw [rejects_eq_outsideRange, hnan]; rfl
    simp [encWith, hp, hrejects]
  · simp [encWith, hp, (isNaN_iff_f32val a).2 hnan]
  · rw [ne_eq, ← isNaN_iff_f32val, Bool.not_eq_true] at hnan
    rw [encWith_of_not_nan p hnan]
    cases rejects a <;> simp

/-- Settles O27: the result is `enc a`; the next state is `exec_enc`'s. -/
theorem encCompletesWithAWordOrTheError : Obligations.EncCompletesWithAWordOrTheError :=
  fun a => ⟨enc a, by rw [enc_eq_outOfRange_iff, rejects_eq_outsideRange],
    fun s => ⟨_, exec_enc a s, rfl, rfl, sampleEnc_of_driven rfl, rfl, dec_output_of_same_operand rfl, rfl,
      rfl, rfl⟩⟩

theorem encOor_eq_rejects {s : State} {a : F32} (h : s.encA = some a) : s.encOor = rejects a := by
  rw [encOor_of_driven h, Bool.eq_iff_iff, oorOf_eq_true_iff, enc_eq_outOfRange_iff]

/-- Settles O57: the ports read together are `sampleEnc_of_driven`; `dec_y` is the decoder's result. -/
theorem portsAreFunctionsOfTheOperands : Obligations.PortsAreFunctionsOfTheOperands := by
  refine fun s => ⟨fun a ha => ⟨?_, encOor_eq_rejects ha, fun y => ⟨fun hy => ?_, fun ⟨hoor, hy⟩ => ?_⟩,
    sampleEnc_of_driven ha⟩, fun w hw => ?_⟩
  · rw [encOor_of_driven ha, oorOf_eq_true_iff]
  · exact ⟨by rw [encOor_of_driven ha, hy, oorOf], encY_of_driven_ok ha hy⟩
  · rw [← sampleEnc_of_driven ha, State.sampleEnc, hoor, hy]
    rfl
  · rw [decY_of_driven hw]
    exact f32val_dec w

/-- Settles O56: both orders are `exec_enc` and `exec_dec` one after the other, on disjoint fields. -/
theorem theTwoUnitsDoNotInteract : Obligations.TheTwoUnitsDoNotInteract := by
  intro a x w s
  refine ⟨_, _, _, _, .enc (enc a), .dec (dec w), exec_enc a s, exec_dec x w _, exec_dec x w s, exec_enc a _,
    ?_, ?_, rfl, rfl, rfl, rfl⟩
  · simp
  · simp

end Sys2Proof.Machine
end

section
/-! PROOF. The normalised regime of the encoder (41_encoder.md R115 to R120): the fields of the word, and its
value as the operand's with the mantissa rounded up. -/

namespace Sys2Proof.Machine

theorem ceilMantissa_eq (mf : Nat) : ceilMantissa mf = (mf + 4095) / 4096 := by
  rw [ceilMantissa]
  split
  next h => rw [h]
  next h =>
    rw [Nat.shiftRight_eq_div_pow]
    omega

theorem ceilMantissa_of_pos {mf : Nat} (h : 1 ≤ mf) : ceilMantissa mf = ((mf - 1) >>> 12) + 1 :=
  if_neg (by omega)

theorem ceilMantissa_le {mf : Nat} (h : mf < 2 ^ 23) : ceilMantissa mf ≤ 2048 := by
  rw [ceilMantissa_eq]
  omega

theorem ceilMantissa_eq_2048_iff {mf : Nat} (h : mf < 2 ^ 23) : ceilMantissa mf = 2048 ↔ 0x7FF000 < mf := by
  rw [ceilMantissa_eq]
  omega

theorem carryOut_iff {mf : Nat} (h : mf < 2 ^ 23) : carryOut mf = true ↔ 0x7FF000 < mf := by
  rw [carryOut, beq_iff_eq, ceilMantissa_eq_2048_iff h]

/-- Rounding up adds less than one unit. -/
theorem ceilMantissa_bounds (mf : Nat) :
    (mf : ℚ) / 4096 ≤ ceilMantissa mf ∧ (ceilMantissa mf : ℚ) < mf / 4096 + 1 := by
  have hlo : mf ≤ 4096 * ceilMantissa mf := by rw [ceilMantissa_eq]; omega
  have hhi : 4096 * ceilMantissa mf < mf + 4096 := by rw [ceilMantissa_eq]; omega
  have hlo' : (mf : ℚ) ≤ 4096 * ceilMantissa mf := by exact_mod_cast hlo
  have hhi' : (4096 : ℚ) * ceilMantissa mf < mf + 4096 := by exact_mod_cast hhi
  constructor <;> linarith

theorem ceilMantissa_eq_ceil (mf : Nat) : (ceilMantissa mf : ℤ) = ⌈(mf : ℚ) / 4096⌉ := by
  obtain ⟨hlo, hhi⟩ := ceilMantissa_bounds mf
  symm
  rw [Int.ceil_eq_iff, Int.cast_natCast]
  exact ⟨by linarith, hlo⟩

/-- Settles O31. -/
theorem mantissaRoundingIsTheCeiling : Obligations.MantissaRoundingIsTheCeiling :=
  fun mf h => ⟨ceilMantissa_eq_ceil mf, ceilMantissa_le h, ceilMantissa_eq_2048_iff h, carryOut_iff h,
    ceilMantissa_of_pos⟩

theorem toNat_reflect (mf : Nat) (h : mf < 2 ^ 23) : (reflect mf).toNat = (2048 - ceilMantissa mf) % 2048 := by
  have htrunc := toNat_trunc 11 (2048 - (ceilMantissa mf : Int))
  have := ceilMantissa_le h
  rw [reflect]
  omega

theorem reflect_eq_zero_iff (mf : Nat) (h : mf < 2 ^ 23) :
    reflect mf = 0 ↔ (2048 - ceilMantissa mf) % 2048 = 0 := by
  rw [← toNat_reflect mf h]
  exact BitVec.toNat_eq

/-- The fields of a positive operand's word (41_encoder.md R118, R120). -/
theorem fields_packPositive {ef mf : Nat} (hlo : 113 ≤ ef) (hhi : ef ≤ 128) :
    fieldE (packPositive ef mf) = ef - 113 ∧ fieldS (packPositive ef mf) = 0 ∧
      fieldM (packPositive ef mf) = ceilMantissa mf % 2048 := by
  have hE := fieldE_pack ((ef : Int) - 113) 0 (ceilMantissa mf)
  have hS := fieldS_pack ((ef : Int) - 113) 0 (ceilMantissa mf)
  have hM := fieldM_pack ((ef : Int) - 113) 0 (ceilMantissa mf)
  rw [packPositive]
  omega

/-- The fields of a negative operand's word (41_encoder.md R119, R120). -/
theorem fields_packNegative {ef mf : Nat} (hlo : 114 ≤ ef) (hhi : ef ≤ 128 ∨ ef = 129 ∧ mf = 0)
    (hmf : mf < 2 ^ 23) :
    fieldS (packNegative ef mf) = 1 ∧
      fieldM (packNegative ef mf) = (2048 - ceilMantissa mf) % 2048 ∧
      fieldE (packNegative ef mf) =
        if (2048 - ceilMantissa mf) % 2048 = 0 then ef - 114 else ef - 113 := by
  have hreflect := toNat_reflect mf hmf
  rw [packNegative]
  by_cases h : reflect mf = 0
  · have hE := fieldE_pack ((ef : Int) - 130) 1 (reflect mf).toNat
    have hS := fieldS_pack ((ef : Int) - 130) 1 (reflect mf).toNat
    have hM := fieldM_pack ((ef : Int) - 130) 1 (reflect mf).toNat
    rw [if_pos h, if_pos ((reflect_eq_zero_iff mf hmf).1 h)]
    omega
  · have hE := fieldE_pack ((ef : Int) - 113) 1 (reflect mf).toNat
    have hS := fieldS_pack ((ef : Int) - 113) 1 (reflect mf).toNat
    have hM := fieldM_pack ((ef : Int) - 113) 1 (reflect mf).toNat
    have hne : ¬ (2048 - ceilMantissa mf) % 2048 = 0 := (reflect_eq_zero_iff mf hmf).not.1 h
    have hsmall : ef ≤ 128 := by
      rcases hhi with h128 | ⟨-, hzero⟩
      · exact h128
      · rw [hzero] at hne
        exact absurd rfl hne
    rw [if_neg h, if_neg hne]
    omega

theorem fieldEf_of_accepted_pos {a : F32} (hacc : rejects a = false) (hSf : fieldSf a = 0) :
    fieldEf a ≤ 128 := by
  rw [accepted_iff] at hacc
  omega

theorem fieldEf_of_accepted_neg {a : F32} (hacc : rejects a = false) (hSf : fieldSf a = 1) :
    fieldEf a ≤ 128 ∨ fieldEf a = 129 ∧ fieldMf a = 0 := by
  rw [accepted_iff] at hacc
  omega

/-- The accepted carry-out operands are the two flagged classes (41_encoder.md R127, R128). -/
theorem carryOut_iff_class {a : F32} (hacc : rejects a = false) (hEf : fieldEf a > 113) :
    carryOut (fieldMf a) = true ↔ positiveCarryOut a ∨ negativeCarryOut a := by
  have hMf := fieldMf_lt a
  rw [accepted_iff] at hacc
  rw [carryOut_iff hMf]
  omega

/-- The word of the normalised regime, where the setting gives it (41_encoder.md R118, R119). -/
theorem encWord_of_normal {p : Params} {a : F32} (hEf : fieldEf a > 113)
    (hgiven : p.carry = .asWritten ∨ carryOut (fieldMf a) = false) :
    encWord p a = if fieldSf a = 0 then packPositive (fieldEf a) (fieldMf a)
      else packNegative (fieldEf a) (fieldMf a) := by
  have hnotFree : ¬ (p.carry = .any ∧ carryOut (fieldMf a) = true) := by
    rintro ⟨hany, hcarry⟩
    simp [hany, hcarry] at hgiven
  rw [encWord, if_pos hEf, encNormal, if_neg hnotFree]

/-- With the lost carry put apart, a packed negative word stands for the rounded mantissa of its operand. -/
theorem hval_packNegative {ef mf : Nat} (hlo : 114 ≤ ef) (hhi : ef ≤ 128 ∨ ef = 129 ∧ mf = 0)
    (hmf : mf < 2 ^ 23) :
    hval (packNegative ef mf) = -((2048 + ceilMantissa mf % 2048 : ℕ) : ℚ) * 2 ^ ((ef : ℤ) - 138) := by
  have hceil := ceilMantissa_le hmf
  obtain ⟨hS, hM, hE⟩ := fields_packNegative hlo hhi hmf
  by_cases hzero : (2048 - ceilMantissa mf) % 2048 = 0
  · have hmod : ceilMantissa mf % 2048 = 0 := by omega
    have hexp : ((ef - 114 : ℕ) : ℤ) - 13 = 11 + ((ef : ℤ) - 138) := by omega
    rw [if_pos hzero] at hE
    rw [hval_of_neg_of_fieldM_zero hS (hM.trans hzero), hE, hexp, zpow_add₀ two_ne_zero, hmod]
    norm_num
  · have hexp : ((ef - 113 : ℕ) : ℤ) - 25 = (ef : ℤ) - 138 := by omega
    have hV := viewV_of_fieldS_one hS
    rw [if_neg hzero] at hE
    rw [hval_of_fieldE_pos (k := -(2048 + ceilMantissa mf % 2048 : ℕ)) (by omega) (by omega), hE, hexp]
    push_cast
    rfl

theorem hval_packPositive {ef mf : Nat} (hlo : 114 ≤ ef) (hhi : ef ≤ 128) :
    hval (packPositive ef mf) = ((2048 + ceilMantissa mf % 2048 : ℕ) : ℚ) * 2 ^ ((ef : ℤ) - 138) := by
  obtain ⟨hE, hS, hM⟩ := fields_packPositive (mf := mf) (by omega) hhi
  have hexp : ((ef - 113 : ℕ) : ℤ) - 25 = (ef : ℤ) - 138 := by omega
  rw [hval_of_fieldE_pos (by omega) (viewV_of_fieldS_zero hS), hE, hM, hexp]
  push_cast
  rfl

/-- The word of a normalised operand stands for the operand with its mantissa rounded up, a carry lost
(41_encoder.md R116 to R120). -/
theorem hval_encWord_of_normal {p : Params} {a : F32} (hacc : rejects a = false) (hEf : fieldEf a > 113)
    (hgiven : p.carry = .asWritten ∨ carryOut (fieldMf a) = false) :
    hval (encWord p a) = signOf (fieldSf a) *
      (((2048 + ceilMantissa (fieldMf a) % 2048 : ℕ) : ℚ) * 2 ^ ((fieldEf a : ℤ) - 138)) := by
  rw [encWord_of_normal hEf hgiven]
  rcases fieldSf_cases a with hSf | hSf
  · rw [if_pos hSf, hval_packPositive hEf (fieldEf_of_accepted_pos hacc hSf), hSf, signOf, if_pos rfl, one_mul]
  · rw [if_neg (by omega), hval_packNegative hEf (fieldEf_of_accepted_neg hacc hSf) (fieldMf_lt a), hSf, signOf,
      if_neg one_ne_zero, neg_mul, neg_one_mul]

/-- A normal operand in the same unit: `Mf / 4096` in place of the rounded mantissa. -/
theorem magnitudeValue_of_normal {a : F32} (h : 1 ≤ fieldEf a) :
    magnitudeValue (magnitude a) = (2048 + (fieldMf a : ℚ) / 4096) * 2 ^ ((fieldEf a : ℤ) - 138) := by
  have hexp : (fieldEf a : ℤ) - 138 = 12 + ((fieldEf a : ℤ) - 150) := by ring
  rw [magnitudeValue_of_fieldEf_pos h, hexp, zpow_add₀ two_ne_zero]
  push_cast
  ring

theorem finiteValue_of_normal {a : F32} (h : 1 ≤ fieldEf a) :
    finiteValue a =
      signOf (fieldSf a) * ((2048 + (fieldMf a : ℚ) / 4096) * 2 ^ ((fieldEf a : ℤ) - 138)) := by
  rw [finiteValue_eq, magnitudeValue_of_normal h]

/-- An accepted operand's word is the encoder's result and shows on the ports (10_state.md R27). -/
theorem exec_enc_of_accepted {a : F32} (s : State) (hacc : rejects a = false) :
    ∃ t : State, exec (.enc a) s = .next t ∧ t.results = s.results ++ [.enc (.ok (encWord params a))] ∧
      t.encOor = false ∧ t.encY = encWord params a := by
  have henc : enc a = .ok (encWord params a) := encWith_of_accepted params hacc
  have hexec := exec_enc a s
  rw [henc] at hexec
  refine ⟨_, hexec, rfl, ?_, encY_of_driven_ok (a := a) rfl henc⟩
  rw [encOor_eq_rejects (a := a) rfl, hacc]

/-- Settles O32: the fields are those of `fields_packPositive`. -/
theorem encOfAPositiveNormalisedOperand : Obligations.EncOfAPositiveNormalisedOperand := by
  intro a s hacc hEf hSf
  obtain ⟨t, hexec, hresults, hoor, hy⟩ := exec_enc_of_accepted s hacc
  obtain ⟨hE, hS, hM⟩ := fields_packPositive (mf := fieldMf a) hEf.le (fieldEf_of_accepted_pos hacc hSf)
  rw [ceilMantissa_eq] at hM
  rw [encWord_of_normal hEf (.inl rfl), if_pos hSf] at hresults hy
  exact ⟨t, _, hexec, hresults, hoor, hy, hE, hS, hM⟩

/-- Settles O33: the fields are those of `fields_packNegative`. -/
theorem encOfANegativeNormalisedOperand : Obligations.EncOfANegativeNormalisedOperand := by
  intro a s hacc hEf hSf
  obtain ⟨t, hexec, hresults, hoor, hy⟩ := exec_enc_of_accepted s hacc
  obtain ⟨hS, hM, hE⟩ := fields_packNegative hEf (fieldEf_of_accepted_neg hacc hSf) (fieldMf_lt a)
  rw [← hM] at hE
  rw [ceilMantissa_eq] at hM
  rw [encWord_of_normal hEf (.inl rfl), if_neg (by omega)] at hresults hy
  exact ⟨t, _, hexec, hresults, hoor, hy, hS, hM, hE⟩

theorem rejects_of_positiveCarryOut {a : F32} (h : positiveCarryOut a) : rejects a = false := by
  obtain ⟨hSf, -, hEf, -⟩ := h
  have := fieldMf_lt a
  rw [accepted_iff]
  omega

theorem rejects_of_negativeCarryOut {a : F32} (h : negativeCarryOut a) : rejects a = false := by
  obtain ⟨hSf, -, hEf, -⟩ := h
  have := fieldMf_lt a
  rw [accepted_iff]
  omega

theorem packPositive_of_ceil_mod_zero {ef mf : Nat} (h : ceilMantissa mf % 2048 = 0) :
    packPositive ef mf = pack ((ef : ℤ) - 113) 0 0 :=
  pack_congr rfl rfl (by omega)

theorem packNegative_of_ceil_mod_zero {ef mf : Nat} (hmf : mf < 2 ^ 23) (h : ceilMantissa mf % 2048 = 0) :
    packNegative ef mf = pack ((ef : ℤ) - 114) 1 0 := by
  have hceil := ceilMantissa_le hmf
  have hzero : reflect mf = 0 := (reflect_eq_zero_iff mf hmf).2 (by omega)
  rw [packNegative, if_pos hzero, hzero]
  exact pack_congr (by omega) rfl rfl

/-- A power of two of the normalised regime, or a carry-out operand, of positive sign. -/
theorem hval_pack_positive_power {ef : Nat} (hlo : 114 ≤ ef) (hhi : ef ≤ 128) :
    hval (pack ((ef : ℤ) - 113) 0 0) = (2 : ℚ) ^ ((ef : ℤ) - 127) := by
  have hexp : (ef : ℤ) - 127 = 11 + ((ef : ℤ) - 138) := by ring
  rw [← packPositive_of_ceil_mod_zero (mf := 0) rfl, hval_packPositive hlo hhi, hexp, zpow_add₀ two_ne_zero]
  norm_num [ceilMantissa]

theorem hval_pack_negative_power {ef : Nat} (hlo : 114 ≤ ef) (hhi : ef ≤ 129) :
    hval (pack ((ef : ℤ) - 114) 1 0) = -(2 : ℚ) ^ ((ef : ℤ) - 127) := by
  have hexp : (ef : ℤ) - 127 = 11 + ((ef : ℤ) - 138) := by ring
  rw [← packNegative_of_ceil_mod_zero (mf := 0) (by omega) rfl, hval_packNegative hlo (by omega) (by omega), hexp,
    zpow_add₀ two_ne_zero]
  norm_num [ceilMantissa]

theorem enc_of_ceil_mod_zero_pos {a : F32} (hacc : rejects a = false) (hEf : fieldEf a > 113)
    (hSf : fieldSf a = 0) (h : ceilMantissa (fieldMf a) % 2048 = 0) :
    enc a = .ok (pack ((fieldEf a : ℤ) - 113) 0 0) := by
  rw [enc, encWith_of_accepted params hacc, encWord_of_normal hEf (.inl rfl), if_pos hSf,
    packPositive_of_ceil_mod_zero h]

theorem enc_of_ceil_mod_zero_neg {a : F32} (hacc : rejects a = false) (hEf : fieldEf a > 113)
    (hSf : fieldSf a = 1) (h : ceilMantissa (fieldMf a) % 2048 = 0) :
    enc a = .ok (pack ((fieldEf a : ℤ) - 114) 1 0) := by
  rw [enc, encWith_of_accepted params hacc, encWord_of_normal hEf (.inl rfl), if_neg (by omega),
    packNegative_of_ceil_mod_zero (fieldMf_lt a) h]

/-- A carry-out operand lies within `2^-11` below the next power of two (41_encoder.md R127, R128). -/
theorem abs_finiteValue_of_carryOut {a : F32} (hEf : 1 ≤ fieldEf a) (hcarry : 0x7FF001 ≤ fieldMf a) :
    (2 : ℚ) ^ ((fieldEf a : ℤ) - 127) * (2 - 1 / 2048) < |finiteValue a| ∧
      |finiteValue a| < (2 : ℚ) ^ ((fieldEf a : ℤ) - 126) := by
  have hpos : (0 : ℚ) < 2 ^ ((fieldEf a : ℤ) - 138) := by positivity
  have hlo : (0x7FF001 : ℚ) ≤ fieldMf a := by exact_mod_cast hcarry
  have hhi : (fieldMf a : ℚ) < 8388608 := by exact_mod_cast fieldMf_lt a
  have hexp : (fieldEf a : ℤ) - 127 = 11 + ((fieldEf a : ℤ) - 138) := by ring
  have hexp' : (fieldEf a : ℤ) - 126 = 12 + ((fieldEf a : ℤ) - 138) := by ring
  rw [abs_finiteValue, magnitudeValue_of_normal hEf, hexp, hexp', zpow_add₀ two_ne_zero, zpow_add₀ two_ne_zero]
  constructor
  · calc (2 : ℚ) ^ (11 : ℤ) * 2 ^ ((fieldEf a : ℤ) - 138) * (2 - 1 / 2048)
        = 4095 * 2 ^ ((fieldEf a : ℤ) - 138) := by norm_num; ring
      _ < _ := mul_lt_mul_of_pos_right (by linarith) hpos
  · exact mul_lt_mul_of_pos_right (by norm_num; linarith) hpos

/-- Settles O38: at carry-out the mantissa kept is 0; under the free setting the word is that setting's. -/
theorem carryOutGivesAboutHalfTheOperand : Obligations.CarryOutGivesAboutHalfTheOperand := by
  intro a
  have hMf := fieldMf_lt a
  have hmod (h : 0x7FF001 ≤ fieldMf a) : ceilMantissa (fieldMf a) % 2048 = 0 := by
    rw [(ceilMantissa_eq_2048_iff hMf).2 h]
  refine ⟨fun h => ?_, fun h => ?_, fun h => ?_, fun p hp h => ?_⟩
  · have hacc := rejects_of_positiveCarryOut h
    obtain ⟨hSf, hlo, hhi, hcarry⟩ := h
    exact ⟨hacc, enc_of_ceil_mod_zero_pos hacc hlo hSf (hmod hcarry),
      hval_pack_positive_power hlo (by omega)⟩
  · have hacc := rejects_of_negativeCarryOut h
    obtain ⟨hSf, hlo, hhi, hcarry⟩ := h
    exact ⟨hacc, enc_of_ceil_mod_zero_neg hacc hlo hSf (hmod hcarry),
      hval_pack_negative_power hlo (by omega)⟩
  · exact abs_finiteValue_of_carryOut (by omega) (by omega)
  · have hacc : rejects a = false := h.elim rejects_of_positiveCarryOut rejects_of_negativeCarryOut
    have hEf : fieldEf a > 113 := by omega
    rw [encWith_of_accepted p hacc, encWord, if_pos hEf, encNormal,
      if_pos ⟨hp, (carryOut_iff_class hacc hEf).2 h⟩]

theorem magnitudeValue_of_power {a : F32} (hEf : 1 ≤ fieldEf a) (hMf : fieldMf a = 0) :
    magnitudeValue (magnitude a) = (2 : ℚ) ^ ((fieldEf a : ℤ) - 127) := by
  have hexp : (fieldEf a : ℤ) - 127 = 11 + ((fieldEf a : ℤ) - 138) := by ring
  rw [magnitudeValue_of_normal hEf, hMf, hexp, zpow_add₀ two_ne_zero]
  norm_num

theorem enc_negative_power {a : F32} (hSf : fieldSf a = 1) (hlo : 114 ≤ fieldEf a) (hhi : fieldEf a ≤ 129)
    (hMf : fieldMf a = 0) :
    enc a = .ok (pack ((fieldEf a : ℤ) - 114) 1 0) ∧
      hval (pack ((fieldEf a : ℤ) - 114) 1 0) = finiteValue a := by
  have hacc : rejects a = false := by
    rw [accepted_iff]
    omega
  refine ⟨enc_of_ceil_mod_zero_neg hacc hlo hSf (by rw [hMf]; rfl), ?_⟩
  rw [hval_pack_negative_power hlo hhi, finiteValue_of_fieldSf_one hSf, magnitudeValue_of_power (by omega) hMf]

theorem enc_positive_power {a : F32} (hSf : fieldSf a = 0) (hlo : 114 ≤ fieldEf a) (hhi : fieldEf a ≤ 128)
    (hMf : fieldMf a = 0) :
    enc a = .ok (pack ((fieldEf a : ℤ) - 113) 0 0) ∧
      hval (pack ((fieldEf a : ℤ) - 113) 0 0) = finiteValue a := by
  have hacc : rejects a = false := by
    rw [accepted_iff]
    omega
  refine ⟨enc_of_ceil_mod_zero_pos hacc hlo hSf (by rw [hMf]; rfl), ?_⟩
  rw [hval_pack_positive_power hlo hhi, finiteValue_of_fieldSf_zero hSf, magnitudeValue_of_power (by omega) hMf]

theorem fields_f32 {s e f : Nat} (hs : s < 2) (he : e < 256) (hf : f < 8388608) :
    fieldSf (f32 s e f) = s ∧ fieldEf (f32 s e f) = e ∧ fieldMf (f32 s e f) = f :=
  ⟨fieldSf_f32 hs he hf, fieldEf_f32 hs he hf, fieldMf_f32 hs he hf⟩

/-- Settles O39: at `Mf = 0` the rounded mantissa is 0 (D9), and both values are powers of two. -/
theorem powersOfTwoAreEncodedExactly : Obligations.PowersOfTwoAreEncodedExactly := by
  intro e hlo hhi
  obtain ⟨hSf, hEf, hMf⟩ := fields_f32 (s := 1) (e := e) (f := 0) (by omega) (by omega) (by omega)
  obtain ⟨henc, hvalue⟩ := enc_negative_power hSf (by omega) (by omega) hMf
  rw [hEf] at henc hvalue
  refine ⟨henc, hvalue, fun h128 => ?_⟩
  obtain ⟨hSf', hEf', hMf'⟩ := fields_f32 (s := 0) (e := e) (f := 0) (by omega) (by omega) (by omega)
  obtain ⟨henc', hvalue'⟩ := enc_positive_power hSf' (by omega) (by omega) hMf'
  rw [hEf'] at henc' hvalue'
  exact ⟨henc', hvalue'⟩

end Sys2Proof.Machine
end

section
/-! PROOF. Encoding a decoded word gives the word (43_properties.md R163 to R168): on an operand that is a whole
number of steps the encoder is exact, and no two words share a value. -/

namespace Sys2Proof.Machine

/-- An operand with the low 12 fraction bits 0 is not rounded and is no carry-out. -/
theorem hval_encWord_of_short_fraction (p : Params) {a : F32} (hacc : rejects a = false)
    (hEf : fieldEf a > 113) (hshort : fieldMf a % 4096 = 0) : hval (encWord p a) = finiteValue a := by
  have hMf := fieldMf_lt a
  have hcarry : carryOut (fieldMf a) = false := by
    rw [← Bool.not_eq_true, carryOut_iff hMf]
    omega
  have hceil : ceilMantissa (fieldMf a) % 2048 = fieldMf a / 4096 := by
    rw [ceilMantissa_eq]
    omega
  have hcast : ((fieldMf a / 4096 : ℕ) : ℚ) = (fieldMf a : ℚ) / 4096 :=
    Nat.cast_div (Nat.dvd_of_mod_eq_zero hshort) (by norm_num)
  rw [hval_encWord_of_normal hacc hEf (.inr hcarry), finiteValue_of_normal (by omega), hceil, Nat.cast_add, hcast,
    Nat.cast_ofNat]

theorem encWord_of_soft (p : Params) {a : F32} (h : fieldEf a ≤ 113) : encWord p a = encSoft p a := by
  rw [encWord, if_neg (by omega)]

/-- A soft-underflow word stands for `T` steps, but for `T = 2048`, which has no place in 12 bits. -/
theorem hval_encSoft {p : Params} {a : F32} (hEf : fieldEf a ≤ 113) (hT : softT p.suTie a ≠ 2048) :
    hval (encSoft p a) = softT p.suTie a * (2 : ℚ) ^ (-24 : ℤ) :=
  hval_of_fieldE_zero (fieldE_encSoft (.inr hT)) (viewT_encSoft hEf hT)

/-- No rule rounds a whole number. -/
theorem softT_of_scaled_eq (tie : SuTie) {a : F32} {k : Int} (hEf : fieldEf a ≤ 113)
    (h : finiteValue a * 2 ^ 24 = k) : softT tie a = k := by
  rw [softT_eq_roundTie tie hEf, h]
  exact roundTie_of_near tie (by norm_num)

theorem finiteValue_dec (w : Hsnr) : finiteValue (dec w) = hval w := finiteValue_of_f32val (f32val_dec w)

/-- Below `2^-13` there are soft-underflow words only (40_format_values.md R95). -/
theorem fieldE_zero_of_fieldEf_dec_le {w : Hsnr} (h : fieldEf (dec w) ≤ 113) : fieldE w = 0 := by
  by_contra hE
  have hlow := (abs_hval_bounds (w := w) (by omega)).1
  have hbinade : (2 : ℚ) ^ (-13 : ℤ) ≤ 2 ^ ((fieldE w : ℤ) - 14) :=
    zpow_le_zpow_right₀ one_le_two (by omega)
  rw [← two_zpow_sub_14 (by omega)] at hlow
  have hEf : fieldEf (dec w) > 113 := by
    rw [fieldEf_gt_113_iff, finiteValue_dec]
    exact hbinade.trans hlow
  omega

/-- Both regimes are exact on a decoded word (43_properties.md R163). -/
theorem hval_encWord_dec (p : Params) (w : Hsnr) : hval (encWord p (dec w)) = hval w := by
  rcases Nat.lt_or_ge 113 (fieldEf (dec w)) with hEf | hEf
  · rw [hval_encWord_of_short_fraction p (rejects_dec w) hEf (fieldMf_dec_mod_4096 w), finiteValue_dec]
  · have hvalue := hval_of_fieldE_zero (fieldE_zero_of_fieldEf_dec_le hEf) (rfl : viewT w = viewT w)
    have hscaled : finiteValue (dec w) * 2 ^ 24 = viewT w := by
      rw [finiteValue_dec, hvalue, mul_assoc]
      norm_num
    have hT := softT_of_scaled_eq p.suTie hEf hscaled
    have hmax := (viewT_bounds w).2
    rw [encWord_of_soft p hEf, hval_encSoft hEf (by omega), hT, hvalue]

theorem encWith_dec (p : Params) (w : Hsnr) : encWith p (dec w) = .ok w := by
  rw [encWith_of_accepted p (rejects_dec w), hval_injective (hval_encWord_dec p w)]

/-- Settles O44: the encoded word has the value of the word decoded, and values are not shared. -/
theorem everyDecodedWordEncodesToItself : Obligations.EveryDecodedWordEncodesToItself :=
  fun w p => encWith_dec p w

theorem enc_dec (w : Hsnr) : enc (dec w) = .ok w := encWith_dec params w

/-- Settles O45: all three clauses are `enc_dec`. -/
theorem decIsInjectiveAndEncIsOnto : Obligations.DecIsInjectiveAndEncIsOnto := by
  refine ⟨fun w v h => ?_, fun w => ⟨dec w, ?_, enc_dec w⟩, fun _ y _ => enc_dec y⟩
  · have henc := enc_dec w
    rw [h, enc_dec v] at henc
    exact (EncResult.ok.inj henc).symm
  · rw [← rejects_eq_outsideRange, rejects_dec]

/-- Settles O46: a pattern of a word's value is the decoder's result or minus zero, by `eq_dec_or_minus_zero`. -/
theorem onlyDecodedPatternsSurviveEncoding : Obligations.OnlyDecodedPatternsSurviveEncoding := by
  intro a hacc
  have hfix (w : Hsnr) (hw : dec w = a) : dec (encWord params a) = a := by
    have henc := enc_dec w
    rw [hw, enc, encWith_of_accepted params hacc] at henc
    rw [EncResult.ok.inj henc, hw]
  refine ⟨encWord params a, encWith_of_accepted params hacc,
    ⟨fun h => ⟨_, h⟩, fun ⟨w, hw⟩ => hfix w hw⟩, fun h => ?_, fun h => ?_⟩
  · rw [f32val_dec] at h
    exact (eq_dec_or_minus_zero h.symm).imp (fun heq => ⟨_, heq.symm⟩) And.right
  · rcases h with ⟨w, hw⟩ | rfl
    · rw [hfix w hw]
    · have hword : encWord params 0x80000000#32 = 0x0000#16 := by decide
      rw [hword, dec_zero, f32val_plusZero, f32val_of_ne (by decide), finiteValue, if_pos (by decide),
        show fieldMf 0x80000000#32 = 0 by decide, Nat.cast_zero, mul_zero, zero_mul]

end Sys2Proof.Machine
end

section
/-! PROOF. The flagged cases of the soft-underflow regime: `T = 2048`, tiny operands, ties, and what negating the
operand does (41_encoder.md R122, R124 to R126; 43_properties.md). -/

namespace Sys2Proof.Machine

theorem encSoft_of_given {p : Params} {a : F32} (h : p.suOvf = .wrap ∨ softT p.suTie a ≠ 2048) :
    encSoft p a = 0#4 ++ trunc 12 (softT p.suTie a) := by
  have hgiven : ¬ (p.suOvf = .any ∧ softT p.suTie a = 2048) := by
    rintro ⟨hany, hT⟩
    simp [hany, hT] at h
  rw [encSoft, if_neg hgiven]

/-- Settles O37: `T = 0` under every tie rule. -/
theorem tinyOperandsGiveTheZeroWord : Obligations.TinyOperandsGiveTheZeroWord := by
  intro p a hEf
  have hT := softT_of_fieldEf_le_101 p.suTie hEf
  rw [encWith_of_fieldEf_le_113 p (by omega), encSoft_of_given (.inr (by omega)), hT]
  rfl

/-! ### `T = 2048` -/

/-- Where every rule rounds to 2048: 2047 is odd and positive, so the tie is rounded up by all three. -/
theorem roundTie_eq_2048_iff (tie : SuTie) {q : ℚ} (h : |q| < 2048) :
    roundTie tie q = 2048 ↔ 2047 + 1 / 2 ≤ q := by
  obtain ⟨-, hhi⟩ := abs_lt.1 h
  constructor
  · intro hround
    have hle := (abs_le.1 (abs_sub_roundTie_le tie q)).1
    rw [hround] at hle
    push_cast at hle
    linarith
  · intro hle
    rcases hle.eq_or_lt with heq | hlt
    · have htie := roundTie_half tie 2047
      push_cast at htie
      rw [← heq, htie]
      cases tie <;> rfl
    · refine roundTie_of_near tie ?_
      rw [abs_lt]
      push_cast
      constructor <;> linarith

theorem magnitudeValue_overflow : magnitudeValue 0x38FFF000 * 2 ^ 24 = 2047 + 1 / 2 := by
  norm_num [magnitudeValue, magnitudeUnits]

theorem scaled_magnitudeValue_ge_iff (n : Nat) :
    2047 + 1 / 2 ≤ magnitudeValue n * 2 ^ 24 ↔ 0x38FFF000 ≤ n := by
  rw [← magnitudeValue_overflow, mul_le_mul_iff_of_pos_right (by positivity : (0 : ℚ) < 2 ^ 24),
    magnitudeValue_strictMono.le_iff_le]

theorem softOverflow_iff {a : F32} (hEf : fieldEf a ≤ 113) :
    softOverflow a ↔ fieldSf a = 0 ∧ 0x38FFF000 ≤ magnitude a := by
  have hmag := magnitude_of_fields a
  have hfields := toNat_of_f32_fields a
  have := fieldMf_lt a
  have := fieldSf_cases a
  omega

theorem fieldEf_of_softOverflow {a : F32} (h : softOverflow a) : fieldEf a = 113 := by
  rw [fieldEf_eq]
  omega

theorem softT_eq_2048_iff (tie : SuTie) {a : F32} (hEf : fieldEf a ≤ 113) :
    softT tie a = 2048 ↔ softOverflow a := by
  rw [softT_eq_roundTie tie hEf, roundTie_eq_2048_iff tie (abs_scaled_lt hEf), softOverflow_iff hEf]
  rcases fieldSf_cases a with hSf | hSf
  · rw [finiteValue_of_fieldSf_zero hSf, scaled_magnitudeValue_ge_iff, hSf, eq_self, true_and]
  · have hnonneg := magnitudeValue_nonneg (magnitude a)
    have hneg : ¬ 2047 + 1 / 2 ≤ -magnitudeValue (magnitude a) * 2 ^ 24 := by
      norm_num
      linarith
    rw [finiteValue_of_fieldSf_one hSf]
    simp only [hneg, hSf, one_ne_zero, false_and]

theorem enc_of_softT {a : F32} {t : Int} (hEf : fieldEf a ≤ 113) (hT : softT .away a = t) :
    enc a = .ok (0#4 ++ trunc 12 t) := by
  rw [enc, encWith_of_fieldEf_le_113 params hEf, encSoft_of_given (.inl rfl)]
  exact congrArg (fun t => EncResult.ok (0#4 ++ trunc 12 t)) hT

theorem enc_of_softOverflow {a : F32} (h : softOverflow a) : enc a = .ok 0x0800#16 := by
  have hEf := fieldEf_of_softOverflow h
  rw [enc_of_softT (by omega) ((softT_eq_2048_iff .away (by omega)).2 h)]
  rfl

theorem finiteValue_pos_of_softOverflow {a : F32} (h : softOverflow a) : 0 < finiteValue a := by
  have hEf := fieldEf_of_softOverflow h
  obtain ⟨hSf, hmag⟩ := (softOverflow_iff (by omega)).1 h
  rw [finiteValue_of_fieldSf_zero hSf, ← magnitudeValue_zero, magnitudeValue_strictMono.lt_iff_lt]
  omega

/-! ### Negation -/

/-- Off ties every rule is an odd function. -/
theorem roundTie_neg_of_near (tie : SuTie) {q : ℚ} {z : Int} (h : |q - z| < 1 / 2) :
    roundTie tie (-q) = -roundTie tie q := by
  have hneg : |-q - ((-z : Int) : ℚ)| < 1 / 2 := by
    rw [Int.cast_neg, ← neg_sub', abs_neg]
    exact h
  rw [roundTie_of_near tie h, roundTie_of_near tie hneg]

theorem neg_add_half (k : Int) : -((k : ℚ) + 1 / 2) = ((-k - 1 : Int) : ℚ) + 1 / 2 := by
  push_cast
  ring

/-- Two of the rules are odd also on a tie. -/
theorem roundTie_neg {tie : SuTie} (htie : tie ≠ .up) (q : ℚ) : roundTie tie (-q) = -roundTie tie q := by
  rcases near_or_half q with ⟨z, hz⟩ | ⟨k, rfl⟩
  · exact roundTie_neg_of_near tie hz
  · rw [neg_add_half, roundTie_half, roundTie_half]
    cases tie with
    | away => simp only [tieChoice]; split <;> split <;> omega
    | even => simp only [tieChoice]; split <;> split <;> omega
    | up => exact absurd rfl htie

theorem roundTie_up_neg_half (k : Int) :
    roundTie .up (-((k : ℚ) + 1 / 2)) = -roundTie .up ((k : ℚ) + 1 / 2) + 1 := by
  rw [neg_add_half, roundTie_half, roundTie_half, tieChoice, tieChoice]
  ring

theorem fieldEf_negatePattern (a : F32) : fieldEf (negatePattern a) = fieldEf a := by
  rw [fieldEf, negatePattern, BitVec.extractLsb'_xor, show (0x80000000#32).extractLsb' 23 8 = 0#8 by decide,
    BitVec.xor_zero, fieldEf]

theorem magnitude_negatePattern (a : F32) : magnitude (negatePattern a) = magnitude a := by
  rw [magnitude, negatePattern, BitVec.extractLsb'_xor, show (0x80000000#32).extractLsb' 0 31 = 0#31 by decide,
    BitVec.xor_zero, magnitude]

theorem fieldSf_negatePattern {a : F32} (h : fieldSf a = 0) : fieldSf (negatePattern a) = 1 := by
  have hbit : a.extractLsb' 31 1 = 0#1 := BitVec.eq_of_toNat_eq h
  rw [fieldSf, negatePattern, BitVec.extractLsb'_xor, hbit]
  decide

theorem finiteValue_negatePattern {a : F32} (h : fieldSf a = 0) :
    finiteValue (negatePattern a) = -finiteValue a := by
  rw [finiteValue_of_fieldSf_one (fieldSf_negatePattern h), magnitude_negatePattern,
    finiteValue_of_fieldSf_zero h]

/-- The rounding of a negated operand, before ties are looked at. -/
theorem softT_negatePattern (tie : SuTie) {a : F32} (hEf : fieldEf a ≤ 113) (hSf : fieldSf a = 0) :
    softT tie (negatePattern a) = roundTie tie (-(finiteValue a * 2 ^ 24)) := by
  rw [softT_eq_roundTie tie (by rwa [fieldEf_negatePattern]), finiteValue_negatePattern hSf, neg_mul]

theorem enc_of_neg_softOverflow {a : F32} (h : softOverflow a) : enc (negatePattern a) = .ok 0x0800#16 := by
  have hEf : fieldEf a ≤ 113 := (fieldEf_of_softOverflow h).le
  have hSf := ((softOverflow_iff hEf).1 h).1
  have hT : softT .away (negatePattern a) = -2048 := by
    rw [softT_negatePattern .away hEf hSf, roundTie_neg (by decide), ← softT_eq_roundTie .away hEf,
      (softT_eq_2048_iff .away hEf).2 h]
  rw [enc_of_softT (by rwa [fieldEf_negatePattern]) hT]
  rfl

/-- The 4096 negative operands are the negations of the `T = 2048` operands. -/
theorem exists_softOverflow_of_neg {a : F32} (hlo : 0xB8FFF000 ≤ a.toNat) (hhi : a.toNat ≤ 0xB8FFFFFF) :
    ∃ b : F32, softOverflow b ∧ negatePattern b = a := by
  have hb : (BitVec.ofNat 32 (magnitude a)).toNat = magnitude a := by
    rw [BitVec.toNat_ofNat, magnitude_eq]
    omega
  have hmag := magnitude_eq a
  have hover : softOverflow (BitVec.ofNat 32 (magnitude a)) := by
    rw [softOverflow, hb]
    omega
  have hSf := ((softOverflow_iff (fieldEf_of_softOverflow hover).le).1 hover).1
  refine ⟨_, hover, eq_of_sign_of_magnitude ?_ ?_⟩
  · rw [fieldSf_negatePattern hSf, fieldSf_eq]
    omega
  · rw [magnitude_negatePattern, magnitude_eq, hb]
    omega

/-- Settles O36: where `T` is 2048 is `softT_eq_2048_iff`; the negative operands are the negations. -/
theorem softUnderflowOverflowOperands : Obligations.SoftUnderflowOverflowOperands := by
  refine ⟨fun tie a hEf => ?_, fun a h => ⟨enc_of_softOverflow h, finiteValue_pos_of_softOverflow h,
    hval_0x0800⟩, fun a hlo hhi => ?_, fun p a hp h => ?_⟩
  · obtain ⟨hlo, hhi⟩ := abs_le.1 (abs_softT_le tie hEf)
    exact ⟨hlo, hhi, softT_eq_2048_iff tie hEf⟩
  · obtain ⟨b, hover, rfl⟩ := exists_softOverflow_of_neg hlo hhi
    exact enc_of_neg_softOverflow hover
  · have hEf : fieldEf a ≤ 113 := (fieldEf_of_softOverflow h).le
    rw [encWith_of_fieldEf_le_113 p hEf, encSoft, if_pos ⟨hp, (softT_eq_2048_iff p.suTie hEf).2 h⟩]

/-! ### Ties -/

/-- The magnitude of an operand that is no tie has a nearest whole number of steps. -/
theorem near_magnitude_of_not_softTie {a : F32} (hEf : fieldEf a ≤ 113) (htie : ¬ softTie a) :
    ∃ z : Int, |magnitudeValue (magnitude a) * 2 ^ 24 - z| < 1 / 2 := by
  by_cases hzero : fieldEf a = 0
  · have hsmall := abs_scaled_lt_half (a := a) (by omega)
    rw [abs_finiteValue_scaled] at hsmall
    refine ⟨0, ?_⟩
    rw [Int.cast_zero, sub_zero, abs_of_nonneg (mul_nonneg (magnitudeValue_nonneg _) (by positivity))]
    exact hsmall
  · have hshift : 126 - fieldEf a = 125 - fieldEf a + 1 := by omega
    have hmod : (2 ^ 23 + fieldMf a) % 2 ^ (125 - fieldEf a + 1) ≠ 2 ^ (125 - fieldEf a) := by
      rw [← hshift]
      exact fun h => htie ⟨by omega, hEf, h⟩
    rw [magnitudeValue_scaled_of_fieldEf_pos (by omega) hEf, hshift]
    exact ⟨_, by rw [Int.cast_natCast]; exact near_add_half_div hmod⟩

theorem near_of_not_softTie {a : F32} (hEf : fieldEf a ≤ 113) (htie : ¬ softTie a) :
    ∃ z : Int, |finiteValue a * 2 ^ 24 - z| < 1 / 2 := by
  obtain ⟨z, hz⟩ := near_magnitude_of_not_softTie hEf htie
  rcases fieldSf_cases a with hSf | hSf
  · exact ⟨z, by rwa [finiteValue_of_fieldSf_zero hSf]⟩
  · refine ⟨-z, ?_⟩
    rw [finiteValue_of_fieldSf_one hSf, Int.cast_neg, neg_mul, ← neg_sub', abs_neg]
    exact hz

theorem half_of_softTie {a : F32} (hSf : fieldSf a = 0) (htie : softTie a) :
    ∃ k : Int, finiteValue a * 2 ^ 24 = k + 1 / 2 := by
  obtain ⟨hpos, hEf, hmod⟩ := htie
  have hshift : 126 - fieldEf a = 125 - fieldEf a + 1 := by omega
  have hvalue := magnitudeValue_scaled_of_fieldEf_pos hpos hEf
  rw [hshift] at hmod hvalue
  rw [finiteValue_of_fieldSf_zero hSf, hvalue, cast_div_of_tie hmod]
  exact ⟨_, by rw [Int.cast_natCast]⟩

/-- Settles O47: `T` of the negated operand is the negated `T` but on ties under `up`, where it is one more. -/
theorem softUnderflowIsSymmetricInSign : Obligations.SoftUnderflowIsSymmetricInSign := by
  refine ⟨fun p a hEf hSf hover => ?_, fun a h => ⟨enc_of_softOverflow h, enc_of_neg_softOverflow h⟩⟩
  have hEf' : fieldEf (negatePattern a) ≤ 113 := by rwa [fieldEf_negatePattern]
  have hT : softT p.suTie a ≠ 2048 := fun h => hover ((softT_eq_2048_iff p.suTie hEf).1 h)
  have hT' : softT p.suTie (negatePattern a) ≠ 2048 := by
    rw [ne_eq, softT_eq_2048_iff p.suTie hEf', softOverflow_iff hEf', fieldSf_negatePattern hSf]
    exact fun h => one_ne_zero h.1
  have hvalue := hval_encSoft hEf hT
  have hvalue' := hval_encSoft hEf' hT'
  rw [softT_eq_roundTie p.suTie hEf] at hvalue
  rw [softT_negatePattern p.suTie hEf hSf] at hvalue'
  refine ⟨_, _, encWith_of_fieldEf_le_113 p hEf, encWith_of_fieldEf_le_113 p hEf', fun h => ?_,
    fun hup htie => ?_⟩
  · have hodd : roundTie p.suTie (-(finiteValue a * 2 ^ 24)) = -roundTie p.suTie (finiteValue a * 2 ^ 24) := by
      rcases h with hrule | hnoTie
      · exact roundTie_neg hrule _
      · obtain ⟨z, hz⟩ := near_of_not_softTie hEf hnoTie
        exact roundTie_neg_of_near p.suTie hz
    rw [f32val_dec, hvalue', hvalue, hodd, Int.cast_neg, neg_mul]
  · obtain ⟨k, hk⟩ := half_of_softTie hSf htie
    rw [hvalue, hvalue', hup, hk, roundTie_up_neg_half]
    push_cast
    ring

end Sys2Proof.Machine
end

section
/-! PROOF. The encoder against its pseudocode in plain arithmetic, against the other parameter settings, and
against the operand's value (41_encoder.md R122, R130, R134; 43_properties.md R170, R171). -/

namespace Sys2Proof.Machine

theorem carryOut_false_of_not_grosslyWrong {a : F32} (hacc : rejects a = false) (hEf : fieldEf a > 113)
    (hgross : ¬ grosslyWrong a) : carryOut (fieldMf a) = false := by
  rw [← Bool.not_eq_true, carryOut_iff_class hacc hEf]
  exact fun h => hgross (or_assoc.1 (.inl h))

/-- Settles O41: with no NaN, no carry-out, no tie and no `T = 2048`, no parameter is read. -/
theorem parameterSettingsDifferOnlyOnTheirOperands :
    Obligations.ParameterSettingsDifferOnlyOnTheirOperands := by
  intro p a hnan htie hgross
  have hword (hacc : rejects a = false) : encWord p a = encWord params a := by
    rcases Nat.lt_or_ge 113 (fieldEf a) with hEf | hEf
    · have hcarry := carryOut_false_of_not_grosslyWrong hacc hEf hgross
      rw [encWord_of_normal hEf (.inr hcarry), encWord_of_normal hEf (.inr hcarry)]
    · have hT (tie : SuTie) : softT tie a ≠ 2048 := fun h =>
        hgross (.inr (.inr ((softT_eq_2048_iff tie hEf).1 h)))
      obtain ⟨z, hz⟩ := near_of_not_softTie hEf htie
      have hrule (tie : SuTie) : softT tie a = z := by
        rw [softT_eq_roundTie tie hEf, roundTie_of_near tie hz]
      rw [encWord_of_soft p hEf, encWord_of_soft params hEf, encSoft_of_given (.inr (hT _)),
        encSoft_of_given (.inr (hT _)), hrule, hrule]
  rw [enc, encWith_of_not_nan p hnan, encWith_of_not_nan params hnan]
  cases hacc : rejects a with
  | true => rfl
  | false => simp [hword hacc]

/-! ### The pseudocode in plain arithmetic -/

theorem softMagnitude_away {ef : Nat} (sf mf : Nat) (hef : ef ≤ 113) :
    softMagnitude .away sf ef mf =
      if ef = 0 then 0 else (2 ^ 23 + mf + 2 ^ (125 - ef)) / (2 * 2 ^ (125 - ef)) := by
  have hshift : 126 - ef = 125 - ef + 1 := by omega
  rw [softMagnitude, roundShift, hshift, Nat.add_sub_cancel, Nat.shiftRight_eq_div_pow, pow_succ' 2 (125 - ef)]

theorem eq_ofNat_of_toNat_eq {w : Hsnr} {n : Nat} (h : w.toNat = n) : w = BitVec.ofNat 16 n := by
  rw [← h, BitVec.ofNat_toNat, BitVec.setWidth_eq]

theorem toNat_packPositive {ef mf : Nat} (hlo : 113 ≤ ef) (hhi : ef ≤ 128) :
    (packPositive ef mf).toNat = (ef - 113) * 4096 + ceilMantissa mf % 2048 := by
  obtain ⟨hE, hS, hM⟩ := fields_packPositive (mf := mf) hlo hhi
  rw [toNat_of_fields, hE, hS, hM]
  omega

theorem toNat_packNegative {ef mf : Nat} (hlo : 114 ≤ ef) (hhi : ef ≤ 128 ∨ ef = 129 ∧ mf = 0)
    (hmf : mf < 2 ^ 23) :
    (packNegative ef mf).toNat =
      (if (2048 - ceilMantissa mf) % 2048 = 0 then ef - 114 else ef - 113) * 4096 + 2048 +
        (2048 - ceilMantissa mf) % 2048 := by
  obtain ⟨hS, hM, hE⟩ := fields_packNegative hlo hhi hmf
  rw [toNat_of_fields, hE, hS, hM]
  omega

/-- The machine's soft-underflow word as a number: `T` modulo 4096 (41_encoder.md R123). -/
theorem toNat_encSoft_params (a : F32) : ((encSoft params a).toNat : Int) = softT .away a % 4096 := by
  rw [toNat_encSoft (.inl rfl), toNat_trunc]
  rfl

section
variable {a : F32} (hEf : fieldEf a ≤ 113)
include hEf

theorem toNat_encSoft_of_fieldSf_zero (hSf : fieldSf a = 0) :
    (encSoft params a).toNat = softMagnitude .away (fieldSf a) (fieldEf a) (fieldMf a) := by
  have hword := toNat_encSoft_params a
  have hbound := abs_le.1 (abs_softT_le .away hEf)
  rw [softT_of_fieldSf_zero .away hSf] at hword hbound
  rw [hSf]
  omega

theorem toNat_encSoft_of_fieldSf_one (hSf : fieldSf a = 1) :
    (encSoft params a).toNat = (4096 - softMagnitude .away (fieldSf a) (fieldEf a) (fieldMf a)) % 4096 := by
  have hword := toNat_encSoft_params a
  have hbound := abs_le.1 (abs_softT_le .away hEf)
  rw [softT_of_fieldSf_one .away hSf] at hword hbound
  rw [hSf]
  omega

end

/-- The divisions and remainders of the plain formulation are the fields; each branch is then one word as a
number (41_encoder.md R130). -/
theorem enc_eq_encArithmetic (a : F32) : enc a = encArithmetic a := by
  have hsf : a.toNat / 2 ^ 31 = fieldSf a := (fieldSf_eq a).symm
  have hmag : a.toNat % 2 ^ 31 = magnitude a := (magnitude_eq a).symm
  have hMf := fieldMf_lt a
  have hef : magnitude a / 2 ^ 23 = fieldEf a := by rw [magnitude_of_fields]; omega
  have hmf : magnitude a % 2 ^ 23 = fieldMf a := by rw [magnitude_of_fields]; omega
  simp only [encArithmetic, hsf, hmag, hef, hmf, ← ceilMantissa_eq]
  cases hacc : rejects a with
  | true => rw [if_pos ((rejects_iff_magnitude a).1 hacc), (enc_eq_outOfRange_iff a).2 hacc]
  | false =>
    have hin := (rejects_iff_magnitude a).not.1 (by simp [hacc])
    rw [if_neg hin, enc, encWith_of_accepted params hacc]
    rcases Nat.lt_or_ge 113 (fieldEf a) with hEf | hEf
    · rw [if_pos hEf, encWord_of_normal hEf (.inl rfl)]
      rcases fieldSf_cases a with hSf | hSf
      · rw [if_pos hSf, if_pos hSf,
          eq_ofNat_of_toNat_eq (toNat_packPositive hEf.le (fieldEf_of_accepted_pos hacc hSf))]
      · rw [if_neg (by omega), if_neg (by omega),
          eq_ofNat_of_toNat_eq (toNat_packNegative hEf (fieldEf_of_accepted_neg hacc hSf) hMf)]
    · rw [if_neg (by omega), encWord_of_soft params hEf, ← softMagnitude_away (fieldSf a) (fieldMf a) hEf]
      rcases fieldSf_cases a with hSf | hSf
      · rw [if_neg (by omega), eq_ofNat_of_toNat_eq (toNat_encSoft_of_fieldSf_zero hEf hSf)]
      · rw [if_pos hSf, eq_ofNat_of_toNat_eq (toNat_encSoft_of_fieldSf_one hEf hSf)]

/-- Settles O40: the next state is `exec_enc`'s, its result `enc_eq_encArithmetic`. -/
theorem encIsThePseudocodeInPlainArithmetic : Obligations.EncIsThePseudocodeInPlainArithmetic :=
  fun a s => ⟨_, exec_enc a s, by rw [← enc_eq_encArithmetic]; rfl⟩

/-! ### Accuracy -/

/-- The step of an operand's binade (41_encoder.md R134). -/
theorem binadeStep_of_normal {a : F32} (hEf : fieldEf a > 113) :
    binadeStep a = 2 ^ ((fieldEf a : ℤ) - 138) := if_pos hEf

theorem binadeStep_of_soft {a : F32} (hEf : fieldEf a ≤ 113) : binadeStep a = 2 ^ (-24 : ℤ) :=
  if_neg (by omega)

theorem signOf_mul_self (sf : Nat) : signOf sf * signOf sf = 1 := by
  rw [signOf]
  split <;> norm_num

theorem abs_signOf (sf : Nat) : |signOf sf| = 1 := by
  rw [signOf]
  split <;> norm_num

/-- The machine's word of a normalised operand, with its carry lost. -/
theorem hval_encWord_params {a : F32} (hacc : rejects a = false) (hEf : fieldEf a > 113) :
    hval (encWord params a) = signOf (fieldSf a) *
      (((2048 + ceilMantissa (fieldMf a) % 2048 : ℕ) : ℚ) * 2 ^ ((fieldEf a : ℤ) - 138)) :=
  hval_encWord_of_normal hacc hEf (.inl rfl)

/-- The error in steps is that of the mantissa kept. -/
theorem abs_error_of_normal {a : F32} (hacc : rejects a = false) (hEf : fieldEf a > 113) :
    |hval (encWord params a) - finiteValue a| =
      |((ceilMantissa (fieldMf a) % 2048 : ℕ) : ℚ) - (fieldMf a : ℚ) / 4096| * binadeStep a := by
  have hstep : (0 : ℚ) < 2 ^ ((fieldEf a : ℤ) - 138) := by positivity
  rw [hval_encWord_params hacc hEf, finiteValue_of_normal (by omega), ← mul_sub, ← sub_mul, abs_mul, abs_signOf,
    one_mul, abs_mul, abs_of_pos hstep, binadeStep_of_normal hEf, Nat.cast_add, Nat.cast_ofNat,
    add_sub_add_left_eq_sub]

theorem abs_error_of_soft {a : F32} (hEf : fieldEf a ≤ 113) (hover : ¬ softOverflow a) :
    |hval (encWord params a) - finiteValue a| ≤ (2 : ℚ) ^ (-25 : ℤ) := by
  have hT : softT params.suTie a ≠ 2048 := fun h => hover ((softT_eq_2048_iff _ hEf).1 h)
  have hround := abs_sub_roundTie_le params.suTie (finiteValue a * 2 ^ 24)
  have hscale : softT params.suTie a * (2 : ℚ) ^ (-24 : ℤ) - finiteValue a =
      -(finiteValue a * 2 ^ 24 - softT params.suTie a) * (2 : ℚ) ^ (-24 : ℤ) := by
    norm_num
    ring
  rw [← softT_eq_roundTie params.suTie hEf] at hround
  rw [encWord_of_soft params hEf, hval_encSoft hEf hT, hscale, abs_mul, abs_neg,
    abs_of_pos (by positivity : (0 : ℚ) < 2 ^ (-24 : ℤ))]
  norm_num at hround ⊢
  linarith

/-- At `T = 2048` the word has the wrong sign (41_encoder.md R124). -/
theorem abs_error_of_softOverflow {a : F32} (h : softOverflow a) :
    (2 : ℚ) ^ (-24 : ℤ) < |hval (encWord params a) - finiteValue a| := by
  have hpos := finiteValue_pos_of_softOverflow h
  have hEf : fieldEf a ≤ 113 := (fieldEf_of_softOverflow h).le
  have henc := enc_of_softOverflow h
  rw [enc, encWith_of_fieldEf_le_113 params hEf] at henc
  rw [encWord_of_soft params hEf, EncResult.ok.inj henc, hval_0x0800, abs_of_neg]
  · norm_num
    linarith
  · norm_num
    linarith

/-- Without carry-out the mantissa kept is the rounded one. -/
theorem ceilMantissa_mod_of_not_carryOut {mf : Nat} (hmf : mf < 2 ^ 23) (h : carryOut mf = false) :
    ceilMantissa mf % 2048 = ceilMantissa mf := by
  have hle := ceilMantissa_le hmf
  have hne : ceilMantissa mf ≠ 2048 := by
    rw [ne_eq, ceilMantissa_eq_2048_iff hmf, ← carryOut_iff hmf, h]
    exact Bool.false_ne_true
  omega

theorem accuracy_of_normal {a : F32} (hacc : rejects a = false) (hEf : fieldEf a > 113)
    (hcarry : carryOut (fieldMf a) = false) :
    0 ≤ |hval (encWord params a)| - |finiteValue a| ∧
      |hval (encWord params a)| - |finiteValue a| < (2 : ℚ) ^ ((fieldEf a : ℤ) - 138) ∧
      0 < hval (encWord params a) * finiteValue a := by
  have hstep : (0 : ℚ) < 2 ^ ((fieldEf a : ℤ) - 138) := by positivity
  obtain ⟨hlo, hhi⟩ := ceilMantissa_bounds (fieldMf a)
  have hMf : (0 : ℚ) ≤ fieldMf a := by positivity
  have hvalue := hval_encWord_params hacc hEf
  rw [ceilMantissa_mod_of_not_carryOut (fieldMf_lt a) hcarry, Nat.cast_add, Nat.cast_ofNat] at hvalue
  have habs : |hval (encWord params a)| = (2048 + ceilMantissa (fieldMf a)) * 2 ^ ((fieldEf a : ℤ) - 138) := by
    rw [hvalue, abs_mul, abs_signOf, one_mul, abs_of_nonneg (by positivity)]
  have hsign : hval (encWord params a) * finiteValue a =
      ((2048 + ceilMantissa (fieldMf a)) * 2 ^ ((fieldEf a : ℤ) - 138)) *
        ((2048 + (fieldMf a : ℚ) / 4096) * 2 ^ ((fieldEf a : ℤ) - 138)) := by
    rw [hvalue, finiteValue_of_normal (by omega), mul_mul_mul_comm, signOf_mul_self, one_mul]
  rw [habs, abs_finiteValue, magnitudeValue_of_normal (by omega), ← sub_mul, hsign]
  refine ⟨mul_nonneg (by linarith) hstep.le, ?_, by positivity⟩
  exact mul_lt_of_lt_one_left hstep (by linarith)

/-- Settles O42. -/
theorem encodedValueIsNearTheOperand : Obligations.EncodedValueIsNearTheOperand :=
  fun a hacc hgross => ⟨encWord params a, encWith_of_accepted params hacc,
    fun hEf => accuracy_of_normal hacc hEf (carryOut_false_of_not_grosslyWrong hacc hEf hgross),
    fun hEf => abs_error_of_soft hEf fun h => hgross (.inr (.inr h))⟩

/-- In the normalised regime the error passes one step exactly at carry-out. -/
theorem gross_error_iff_carryOut {a : F32} (hacc : rejects a = false) (hEf : fieldEf a > 113) :
    binadeStep a < |hval (encWord params a) - finiteValue a| ↔ carryOut (fieldMf a) = true := by
  have hstep : 0 < binadeStep a := by
    rw [binadeStep_of_normal hEf]
    positivity
  have hMf := fieldMf_lt a
  rw [abs_error_of_normal hacc hEf, lt_mul_iff_one_lt_left hstep]
  cases hcarry : carryOut (fieldMf a) with
  | true =>
    have hlarge := (carryOut_iff hMf).1 hcarry
    have hlarge' : (0x7FF000 : ℚ) < fieldMf a := by exact_mod_cast hlarge
    rw [(ceilMantissa_eq_2048_iff hMf).2 hlarge, abs_of_neg]
    · norm_num
      linarith
    · norm_num
      linarith
  | false =>
    obtain ⟨hlo, hhi⟩ := ceilMantissa_bounds (fieldMf a)
    rw [ceilMantissa_mod_of_not_carryOut hMf hcarry, abs_of_nonneg (by linarith)]
    simp only [Bool.false_eq_true, iff_false, not_lt]
    linarith

/-- In the soft-underflow regime the error passes one step exactly at `T = 2048`. -/
theorem gross_error_iff_softOverflow {a : F32} (hEf : fieldEf a ≤ 113) :
    binadeStep a < |hval (encWord params a) - finiteValue a| ↔ softOverflow a := by
  rw [binadeStep_of_soft hEf]
  refine ⟨fun h => ?_, abs_error_of_softOverflow⟩
  by_contra hover
  have hnear := abs_error_of_soft hEf hover
  norm_num at h hnear
  linarith

/-- Settles O43: one lemma for each regime. -/
theorem grossErrorsAreExactlyTheFlaggedClasses : Obligations.GrossErrorsAreExactlyTheFlaggedClasses := by
  refine fun a hacc => ⟨encWord params a, encWith_of_accepted params hacc, ?_⟩
  rcases Nat.lt_or_ge 113 (fieldEf a) with hEf | hEf
  · have hnotSoft : ¬ softOverflow a := fun h => by
      have := fieldEf_of_softOverflow h
      omega
    rw [gross_error_iff_carryOut hacc hEf, carryOut_iff_class hacc hEf, grosslyWrong, ← or_assoc]
    exact (or_iff_left hnotSoft).symm
  · rw [gross_error_iff_softOverflow hEf]
    refine ⟨fun h => .inr (.inr h), fun h => ?_⟩
    rcases h with ⟨-, hpos, -, -⟩ | ⟨-, hneg, -, -⟩ | hover
    · omega
    · omega
    · exact hover

/-! ### The top of a binade -/

theorem accepted_f32 {s e f : Nat} (hs : s < 2) (he : e ≤ 127 + s) (hf : f < 8388608) :
    rejects (f32 s e f) = false := by
  obtain ⟨hSf, hEf, hMf⟩ := fields_f32 hs (by omega : e < 256) hf
  rw [accepted_iff, hSf, hEf, hMf]
  omega

/-- A normalised operand written by its fields, the value of its word, and its own value. -/
theorem enc_f32 {s e f : Nat} (hs : s < 2) (hlo : 114 ≤ e) (hhi : e ≤ 127 + s) (hf : f < 8388608) :
    ∃ y : Hsnr, enc (f32 s e f) = .ok y ∧
      hval y = signOf s * (((2048 + ceilMantissa f % 2048 : ℕ) : ℚ) * 2 ^ ((e : ℤ) - 138)) ∧
      finiteValue (f32 s e f) = signOf s * ((2048 + (f : ℚ) / 4096) * 2 ^ ((e : ℤ) - 138)) := by
  have hacc := accepted_f32 hs hhi hf
  obtain ⟨hSf, hEf, hMf⟩ := fields_f32 hs (by omega : e < 256) hf
  have hvalue := hval_encWord_params hacc (by omega)
  have hoperand := finiteValue_of_normal (a := f32 s e f) (by omega)
  rw [hSf, hEf, hMf] at hvalue hoperand
  exact ⟨_, encWith_of_accepted params hacc, hvalue, hoperand⟩

/-- At the top of a binade the next operand away from zero is larger in magnitude, and its word, with the carry
lost, smaller: 2048 steps in place of 4095 (43_properties.md R170). -/
theorem enc_top_of_binade {s e : Nat} (hs : s < 2) (hlo : 114 ≤ e) (hhi : e ≤ 127 + s) :
    ∃ (y z : Hsnr) (small large step : ℚ), 0 < step ∧ small < large ∧
      enc (f32 s e 0x7FF000) = .ok y ∧ enc (f32 s e 0x7FF001) = .ok z ∧
      finiteValue (f32 s e 0x7FF000) = signOf s * small ∧ finiteValue (f32 s e 0x7FF001) = signOf s * large ∧
      hval y = signOf s * (4095 * step) ∧ hval z = signOf s * (2048 * step) := by
  have hstep : (0 : ℚ) < 2 ^ ((e : ℤ) - 138) := by positivity
  obtain ⟨y, hy, hyval, hyop⟩ := enc_f32 (f := 0x7FF000) hs hlo hhi (by omega)
  obtain ⟨z, hz, hzval, hzop⟩ := enc_f32 (f := 0x7FF001) hs hlo hhi (by omega)
  have hyceil : 2048 + ceilMantissa 0x7FF000 % 2048 = 4095 := by decide
  have hzceil : 2048 + ceilMantissa 0x7FF001 % 2048 = 2048 := by decide
  rw [hyceil] at hyval
  rw [hzceil] at hzval
  exact ⟨y, z, _, _, _, hstep, mul_lt_mul_of_pos_right (by norm_num) hstep, hy, hz, hyop, hzop,
    by exact_mod_cast hyval, by exact_mod_cast hzval⟩

/-- Settles O48: `enc_top_of_binade` for each sign; the top of the soft-underflow range is concrete. -/
theorem encIsNotMonotone : Obligations.EncIsNotMonotone := by
  refine ⟨fun e hlo hhi => ?_, fun e hlo hhi => ?_, by decide, by decide, ?_⟩
  · obtain ⟨y, z, small, large, step, hstep, hlt, hy, hz, hyop, hzop, hyval, hzval⟩ :=
      enc_top_of_binade (s := 0) (by omega) hlo (by omega)
    rw [signOf, if_pos rfl, one_mul] at hyop hzop hyval hzval
    refine ⟨y, z, hy, hz, by rwa [hyop, hzop], ?_⟩
    rw [hyval, hzval]
    linarith
  · obtain ⟨y, z, small, large, step, hstep, hlt, hy, hz, hyop, hzop, hyval, hzval⟩ :=
      enc_top_of_binade (s := 1) (by omega) hlo (by omega)
    rw [signOf, if_neg one_ne_zero, neg_one_mul] at hyop hzop hyval hzval
    refine ⟨y, z, hy, hz, by rw [hyop, hzop]; exact neg_lt_neg hlt, ?_⟩
    rw [hyval, hzval]
    linarith
  · exact (hval_neg (by decide)).trans_le (hval_nonneg (by decide))

/-- Settles O49: the eight words and patterns are concrete. -/
theorem boundaryValuesOfTheSource : Obligations.BoundaryValuesOfTheSource := by
  refine ⟨?_, ?_, ?_, ?_, ?_, ?_, ?_, ?_⟩ <;> decide

end Sys2Proof.Machine
end

section
/-! PROOF. A run collects one result per descriptor (00_scope.md R9; 70_reset_and_hazards.md R210). -/

namespace Sys2Proof.Machine

/-- Induction on the descriptors the run presents; one step is `step_next_fields`. -/
theorem run_collects (ds rest : List Descriptor) (s : State) (h : s.pending = ds ++ rest) :
    ∃ t : State, Sys2Proof.core.run ds.length s = .next t ∧ t.results = s.results ++ ds.map resultOf ∧
      t.pending = rest ∧ t.done = s.done ++ ds := by
  induction ds generalizing s with
  | nil => exact ⟨s, rfl, by simp, h, by simp⟩
  | cons d ds ih =>
    obtain ⟨t, -, hstep⟩ := step_goes_on h
    obtain ⟨d', rest', hpending, hpending', hdone, hresults, -⟩ := step_next_fields hstep
    obtain ⟨rfl, rfl⟩ := List.cons.inj (h.symm.trans hpending)
    obtain ⟨u, hrun, huresults, hupending, hudone⟩ := ih t.advance hpending'
    refine ⟨u, ?_, ?_, hupending, ?_⟩
    · rw [List.length_cons, core_run_succ _ hstep, hrun]
    · rw [huresults, hresults, List.append_assoc, List.map_cons, List.singleton_append]
    · rw [hudone, hdone, List.append_assoc, List.singleton_append]

/-- Settles O54: the run is `run_collects`, and an encoder's result is `enc_eq_encArithmetic`. -/
theorem runCollectsTheResultOfEachDescriptor : Obligations.RunCollectsTheResultOfEachDescriptor := by
  intro ds rest s h
  obtain ⟨t, hrun, hresults, hpending, hdone⟩ := run_collects ds rest s h
  refine ⟨t, hrun, ?_, hpending, hdone⟩
  rw [hresults]
  refine congrArg (s.results ++ ·) (List.map_congr_left fun d _ => ?_)
  rw [resultOf]
  cases decode d with
  | enc a => rw [resultOfInstr, enc_eq_encArithmetic]
  | dec x w => rfl

end Sys2Proof.Machine
end
